-- ==== Sys2Proof/Word.lean ====
section
/-! DEFINITION. The words of the bit-field unit (BFU), and the two ways the spec numbers their parts. -/

namespace Sys2Proof

/-- A data word: buffer, insert value or result. `DATA_W = 64` is fixed (R7, R8). -/
abbrev Word := BitVec 64

/-- A command word on `req_cmd`. `CMD_W = 32` (R8, R58). -/
abbrev Cmd := BitVec 32

/-- One byte of a data word. -/
abbrev Byte := BitVec 8

end Sys2Proof
end

