-- ==== Sys2Proof/Syntax.lean ====
section
/-! DEFINITION. The three commands of the BFU (R2), one constructor per row of spec/opcode_table.json.

The immediates POS and LEN are held as the unsigned numbers they stand for (R62, R63): the range checks of
R79 are on unbounded integers. Which numbers a command word can carry is `Instr.WellFormed`
(WellFormed.lean). The data operands A and B are no part of a command: they are on the request port (R65). -/

namespace Sys2Proof

/-- A decoded command word. -/
inductive Instr where
  /-- BFEXT (R89): extract the field of `numBits` bits at `startPos`. `bigEndian` is the BE bit (R61). -/
  | bfext (bigEndian : Bool) (startPos numBits : Nat)
  /-- BFINS (R91): insert the low `numBits` bits of B at `startPos`. It has no byte-order operand. -/
  | bfins (startPos numBits : Nat)
  /-- NTHBYTE (R93): byte `byteNum`, counted from the most significant. -/
  | nthbyte (byteNum : Nat)
deriving DecidableEq, Repr

end Sys2Proof
end

