-- ==== Sys2Proof/WellFormed.lean ====
section
/-! DEFINITION. Which commands have an encoding. A number outside 0 to 127 has none in POS or LEN (R66).
Being encodable is not being in range: `bfext true 100 0` is well formed and answered RANGE (R62, R63, R72). -/

namespace Sys2Proof

/-- A number that the 7-bit fields POS and LEN can hold (`POS_W = LEN_W = 7`: R8, R62, R63). -/
def fitsField (n : Nat) : Bool := n ≤ 127

/-- The command has an encoding: every immediate fits its 7-bit field. -/
def Instr.wellFormed : Instr → Bool
  | .bfext _ startPos numBits => fitsField startPos && fitsField numBits
  | .bfins startPos numBits => fitsField startPos && fitsField numBits
  | .nthbyte byteNum => fitsField byteNum

/-- `Instr.wellFormed` as a proposition, the form statements use. -/
abbrev Instr.WellFormed (i : Instr) : Prop := i.wellFormed = true

end Sys2Proof
end

