-- ==== Sys2Proof/Decode.lean ====
section
/-! DEFINITION. The command word: field extraction (R59, R77), the reserved-bit check (R64, R78), the
decoder (R69, R70, R72) and, after it, the encoder (R75). -/

namespace Sys2Proof

/-- OP, `CMD[3:0]` (R59, R77). -/
def cmdOp (cmd : Cmd) : Nat := (cmd.extractLsb' 0 4).toNat

/-- BE, `CMD[4]` (R59, R61, R77). -/
def cmdBe (cmd : Cmd) : Bool := cmd.getLsbD 4

/-- POS, `CMD[14:8]`, unsigned 0 to 127 (R62, R77). -/
def cmdPos (cmd : Cmd) : Nat := (cmd.extractLsb' 8 7).toNat

/-- LEN, `CMD[22:16]`, unsigned 0 to 127 (R63, R77). -/
def cmdLen (cmd : Cmd) : Nat := (cmd.extractLsb' 16 7).toNat

/-- The mask of the reserved bits of the operation OP selects, or nothing where OP itself is reserved
(R64, and the case split of R78). -/
def reservedMask : Nat → Option Cmd
  | 0 => some 0xFF8080E0#32
  | 1 => some 0xFF8080F0#32
  | 2 => some 0xFFFF80F0#32
  | _ => none

/-- `ReservedOK` of R78. -/
def reservedOK (cmd : Cmd) : Bool :=
  match reservedMask (cmdOp cmd) with
  | some mask => cmd &&& mask == 0#32
  | none => false

/-- Why a command word is no command (R70, R96): both are answered ILLEGAL. -/
inductive DecodeError where
  /-- OP is 3 to 15, reserved for future operations (R60, R71). -/
  | reservedOp (op : Nat)
  /-- OP is 0 to 2 and a reserved bit of that operation is 1 (R64). -/
  | reservedBit (op : Nat)
deriving DecidableEq, Repr

/-- Decode a command word: total on every 32-bit word (R72). Whether POS and LEN are in range is no part of
decoding. -/
def decode (cmd : Cmd) : Except DecodeError Instr :=
  if reservedOK cmd then
    match cmdOp cmd with
    | 0 => .ok (.bfext (cmdBe cmd) (cmdPos cmd) (cmdLen cmd))
    | 1 => .ok (.bfins (cmdPos cmd) (cmdLen cmd))
    | 2 => .ok (.nthbyte (cmdPos cmd))
    | op => .error (.reservedOp op)
  else if cmdOp cmd < 3 then .error (.reservedBit (cmdOp cmd))
  else .error (.reservedOp (cmdOp cmd))

/-- One row of the opcode map of R69. -/
structure OpcodeRow where
  matchBits : Cmd
  mask : Cmd
deriving DecidableEq, Repr

/-- A command word selects the row when `(CMD & mask) = match` (R69). -/
def OpcodeRow.selects (row : OpcodeRow) (cmd : Cmd) : Bool := cmd &&& row.mask == row.matchBits

/-- The opcode map of R69: BFEXT, BFINS, NTHBYTE. -/
def opcodeRows : List OpcodeRow :=
  [⟨0x00000000#32, 0xFF8080EF#32⟩, ⟨0x00000001#32, 0xFF8080FF#32⟩, ⟨0x00000002#32, 0xFFFF80FF#32⟩]

/-- `OP | (BE << 4) | (POS << 8) | (LEN << 16)` (R75). -/
def packCmd (op : Nat) (be : Bool) (pos len : Nat) : Cmd :=
  BitVec.ofNat 32 op ||| (BitVec.ofBool be).setWidth 32 <<< 4
    ||| BitVec.ofNat 32 pos <<< 8 ||| BitVec.ofNat 32 len <<< 16

/-- The command word of a well-formed command (R60, R75); the fields an operation lacks are 0 (R64). -/
def encode : Instr → Cmd
  | .bfext bigEndian startPos numBits => packCmd 0 bigEndian startPos numBits
  | .bfins startPos numBits => packCmd 1 false startPos numBits
  | .nthbyte byteNum => packCmd 2 false byteNum 0

/-- The command word whose low `nbits` bits are those of `w`, as spec/opcode_table.json numbers them (bit 0 the
least significant), every higher bit 0. A command is exactly one word on `req_cmd` (R58): no byte order arises. -/
def tableWord (nbits w : Nat) : Cmd := BitVec.ofNat 32 (w % 2 ^ nbits)

/-- What the decoder reads from the table's bits. -/
def decodeTableWord (nbits w : Nat) : Option Instr :=
  match decode (tableWord nbits w) with
  | .ok i => some i
  | .error _ => none

end Sys2Proof
end

