-- ==== Sys2Proof/Config.lean ====
section
/-! DEFINITION. What one implementation of the BFU fixes (the OPEN parameters of R8) and the values the
spec leaves unspecified. Nothing here but the `+ 1` of "an integer ≥ 1" can be used by a proof. The other
two OPEN parameters lie outside the BFU (R37, R47) and are arguments: `PAYLOAD_PACKING` of `payloadAnswer`
(Machine/Requester.lean), `ARBITRATION` of `issuedBy` and `routedTo` (Machine/Sharing.lean). -/

namespace Sys2Proof.Config

/-- `MAX_INFLIGHT - 1`: an unevaluated implementation constant (R8, D14). -/
opaque extraInflight : Nat

/-- `MAX_INFLIGHT`, OPEN, an integer ≥ 1 (R8, R32, D14). -/
def maxInflight : Nat := extraInflight + 1

/-- `RSP_LATENCY - 1`: an unevaluated implementation constant (R8, D15). -/
opaque extraLatency : Nat

/-- `RSP_LATENCY`, OPEN, an integer ≥ 1, in clock cycles (R8, R122, D15). -/
def rspLatency : Nat := extraLatency + 1

/-- FREE VALUE (log entry 3): the delay, over the least one of one cycle, after which the response of the
command accepted in clock cycle `k` is ready. It is not a function of CMD, A or B (R123). -/
opaque extraDelay : Nat → Nat

/-- FREE VALUE (log entry 4): `rsp_status` in clock cycle `k` while `rsp_valid` is 0 (R28). -/
opaque idleStatus : Nat → BitVec 2

/-- FREE VALUE (log entry 4): `rsp_result` in clock cycle `k` while `rsp_valid` is 0 (R28). -/
opaque idleResult : Nat → Word

/-- FREE VALUE (log entry 5): `req_ready` in clock cycle `k` before the first reset after power-up (R114). -/
opaque unresetReqReady : Nat → Bool

/-- FREE VALUE (log entry 5): `rsp_valid` in clock cycle `k` before the first reset after power-up (R114). -/
opaque unresetRspValid : Nat → Bool

end Sys2Proof.Config
end

