-- ==== Sys2Proof/Machine/State.lean ====
section
/-! DEFINITION. The state of the BFU: its in-flight queue (R32), the values on its input ports at the coming
clock edge (R23), and the fields the model adds: a record of what left on the response port, the script of
the environment's next inputs, the request R25 obliges the requester to hold, whether a reset has been
applied since power-up (R114), and the clock-cycle number that the free values are read at.

There is no register, program counter, flag, control register or memory (R17 to R21, R42). -/

namespace Sys2Proof.Machine

/-- STATUS of a response (R68). The code `0b11` is reserved and has no constructor: the BFU never produces it. -/
inductive Status where
  /-- `0b00`: the command was performed. -/
  | ok
  /-- `0b01`: a field or byte index outside its legal range. -/
  | range
  /-- `0b10`: the command word is a reserved encoding. -/
  | illegal
deriving DecidableEq, Repr

/-- A response: STATUS and RESULT (R67). -/
structure Response where
  status : Status
  result : Word
deriving DecidableEq, Repr

/-- What a requester presents on the request port with one command: CMD, A and B (R23, R65). -/
structure Request where
  cmd : Cmd
  a : Word
  b : Word
deriving DecidableEq, Repr

/-- The values on the BFU's input ports in one clock cycle, sampled at the rising edge that ends it (R23, R24).
The clock itself is the step. -/
structure Inputs where
  rst : Bool
  reqValid : Bool
  reqCmd : Cmd
  reqA : Word
  reqB : Word
  rspReady : Bool
deriving DecidableEq, Repr

/-- The values on the BFU's output ports in one clock cycle (R23). `rspStatus` is the 2-bit code. -/
structure Outputs where
  reqReady : Bool
  rspValid : Bool
  rspStatus : BitVec 2
  rspResult : Word
deriving DecidableEq, Repr

/-- A command in flight: its response, computed at acceptance (R26, R32), and the number of the clock cycle
whose edge accepted it. -/
structure Entry where
  response : Response
  acceptedAt : Nat
deriving DecidableEq, Repr

/-- The machine. Plain data. -/
structure State where
  /-- Q, the in-flight queue, oldest first (R32). -/
  queue : List Entry
  /-- The input ports at the coming edge (R23). -/
  pins : Inputs
  /-- The environment's inputs for the cycles after that; the model's own (log entry 2). -/
  script : List Inputs
  /-- The responses that left on the response port, oldest first (R35); the model's own. -/
  delivered : List Response
  /-- The request offered in the last cycle and not accepted, which the requester must hold (R25, R120). -/
  pending : Option Request
  /-- A reset has been applied since power-up (R114). -/
  resetSeen : Bool
  /-- The number of the clock cycle; the model's own. No command can read it (R105). -/
  cycle : Nat
deriving DecidableEq, Repr

/-- Why a step faults: never. The BFU has no trap (R95) and an error is a response, not a stop (R98, D10), so the
type is empty: nothing raises it. -/
inductive Fault where
deriving DecidableEq, Repr

/-- Why the model gives a step no meaning. -/
inductive Refusal where
  /-- An arm of `exec` without a meaning; raised by no arm. Safe. -/
  | notModelled (mnemonic : String)
  /-- Raised by `step` at an edge without reset before any reset since power-up: the spec leaves Q and the handshake
  outputs unspecified there and says to refuse the run (R114; 93_implementation_defined.md row 9). Safe. -/
  | noResetSincePowerUp
  /-- Raised by `step` when the requester changes or withdraws a request before it is accepted: which value is
  sampled is not specified and the spec says to refuse the requester (R120; 93_implementation_defined.md row 7). Safe. -/
  | requestChanged
  /-- Raised by a requester's decoder of `rsp_status` on the reserved code `0b11` (R68;
  93_implementation_defined.md row 4). `step` never raises it. Safe. -/
  | reservedStatus
deriving DecidableEq, Repr

/-- The input ports with nothing offered, nothing taken and no reset. DESIGN CHOICE (log entry 1): the spec gives no
value of an input port at reset. -/
def Inputs.idle : Inputs :=
  { rst := false, reqValid := false, reqCmd := 0, reqA := 0, reqB := 0, rspReady := false }

/-- The first cycle with `rst = 0` after a reset (R40, R112): Q is empty. -/
def State.reset : State :=
  { queue := [], pins := Inputs.idle, script := [], delivered := [], pending := none,
    resetSeen := true, cycle := 0 }

end Sys2Proof.Machine
end

