-- ==== Sys2Proof/Machine/Flags.lean ====
section
/-! DEFINITION. The BFU has no flags (R19). In their place: the STATUS codes (R68) and the range checks that
decide between OK and RANGE (R79). -/

namespace Sys2Proof.Machine

/-- The 2-bit code of a STATUS (R68). -/
def statusCode : Status → BitVec 2
  | .ok => 0b00#2
  | .range => 0b01#2
  | .illegal => 0b10#2

/-- The STATUS a 2-bit code stands for; `0b11` is reserved (R68). -/
def statusOfCode (code : BitVec 2) : Option Status :=
  match code.toNat with
  | 0 => some .ok
  | 1 => some .range
  | 2 => some .illegal
  | _ => none

/-- `FieldOK` of R79, on unbounded numbers: the sum never wraps (R13, D23). -/
def fieldOK (pos len : Nat) : Bool := 1 ≤ len && len ≤ 64 && pos + len ≤ 64

/-- `ByteOK` of R79. -/
def byteOK (n : Nat) : Bool := n ≤ 7

end Sys2Proof.Machine
end

