-- ==== Sys2Proof/Machine/Operands.lean ====
section
/-! DEFINITION. The operand forms of the shared datapath: bytes and the byte swap (R11, R82), endian
normalization (R84), shift amounts (R80), the mask (R81). -/

namespace Sys2Proof.Machine

/-- Byte `k` of a word, byte 0 the most significant: `w[63 - 8k : 56 - 8k]` (R11). -/
def byteOf (w : Word) (k : Nat) : Byte := w.extractLsb' (56 - 8 * k) 8

/-- `ByteSwap64` (R82): the most significant byte of the result is byte 7 of `w`, and so on. -/
def byteSwap64 (w : Word) : Word :=
  byteOf w 7 ++ byteOf w 6 ++ byteOf w 5 ++ byteOf w 4 ++ byteOf w 3 ++ byteOf w 2 ++ byteOf w 1 ++ byteOf w 0

/-- Endian normalization of BFEXT's buffer (R84). -/
def endianNormalize (bigEndian : Bool) (a : Word) : Word := if bigEndian then a else byteSwap64 a

/-- The shift amount of a field (R80), meaningful when `fieldOK pos len`. -/
def fieldShift (pos len : Nat) : Nat := 64 - pos - len

/-- The shift amount of a byte, `8 * (7 - n)` (R93). -/
def byteShift (n : Nat) : Nat := 8 * (7 - n)

/-- `Mask(len)`, the 64-bit value `2^len - 1` (R13, R81). -/
def mask (len : Nat) : Word := BitVec.ofNat 64 (2 ^ len - 1)

end Sys2Proof.Machine
end

