-- ==== Sys2Proof/Machine/Ops.lean ====
section
/-! DEFINITION. The operations every command and every clock edge share: ending a command (R14), the
in-flight queue (R32, R34, R35), the handshake ports (R24, R27, R28), reset (R111) and the passing of a clock
cycle.

The spec's exceptions are `raise`: an error is a response, there is no trap to take and none to return from
(R95, R102). -/

namespace Sys2Proof.Machine

/-! ### Ending a command (R14) -/

/-- `respond(s, r)` of R14. -/
def respond (status : Status) (result : Word) : Response := { status := status, result := result }

/-- `raise <Status>()` of R14: RESULT is 0 and nothing else is computed (R67, R97, D11). -/
def raise (status : Status) : Response := respond status 0

/-- The command's response joins the in-flight queue as its newest entry: the effect of Accept (R34). -/
def State.answer (s : State) (r : Response) : State :=
  { s with queue := s.queue ++ [{ response := r, acceptedAt := s.cycle }] }

/-! ### The request on the ports -/

/-- The command the input ports present (R23). -/
def Inputs.request (p : Inputs) : Request := { cmd := p.reqCmd, a := p.reqA, b := p.reqB }

/-- The requester keeps its duty of R25 and R120: a request offered and not accepted is still there, unchanged. -/
def State.requestStable (s : State) : Bool :=
  match s.pending with
  | none => true
  | some r => s.pins.reqValid && s.pins.request == r

/-! ### Readiness (R27, R28, R122) -/

/-- Fewer than `depth` entries are in flight. Written by recursion so that it computes on a short queue although
`Config.maxInflight` is unevaluated. -/
def hasRoom {α : Type} : List α → Nat → Bool
  | _, 0 => false
  | [], _ + 1 => true
  | _ :: q, n + 1 => hasRoom q n

/-- The number of cycles after the one that accepts a command until its response is ready, for a command accepted in
cycle `k`: at least 1, at most `RSP_LATENCY`, and otherwise free (R122, log entry 3). -/
def latencyAt (k : Nat) : Nat := 1 + min (Config.extraDelay k) Config.extraLatency

/-- The entry's response is ready to present in clock cycle `now` (R28, R122). -/
def Entry.readyAt (e : Entry) (now : Nat) : Bool := latencyAt e.acceptedAt ≤ now - e.acceptedAt

/-- The oldest in-flight command's response is ready to present (R28). -/
def State.headReady (s : State) : Bool :=
  match s.queue with
  | [] => false
  | e :: _ => e.readyAt s.cycle

/-- The output port `req_ready` (R27; 0 under reset by R111; unspecified before the first reset by R114). -/
def State.reqReady (s : State) : Bool :=
  if s.pins.rst then false
  else if s.resetSeen then hasRoom s.queue Config.maxInflight
  else Config.unresetReqReady s.cycle

/-- The output port `rsp_valid` (R28; 0 under reset by R111; unspecified before the first reset by R114). -/
def State.rspValid (s : State) : Bool :=
  if s.pins.rst then false
  else if s.resetSeen then s.headReady
  else Config.unresetRspValid s.cycle

/-- All output ports in this cycle (R23). With `rsp_valid` 0 the response ports carry free values (R28). -/
def State.outputs (s : State) : Outputs :=
  let idle : Outputs :=
    { reqReady := s.reqReady, rspValid := s.rspValid,
      rspStatus := Config.idleStatus s.cycle, rspResult := Config.idleResult s.cycle }
  match s.queue with
  | e :: _ =>
    if s.rspValid then
      { idle with rspStatus := statusCode e.response.status, rspResult := e.response.result }
    else idle
  | [] => idle

/-- The coming edge accepts the command on the request port (R24). -/
def State.accepting (s : State) : Bool := !s.pins.rst && s.pins.reqValid && s.reqReady

/-- The coming edge delivers the oldest response (R24). -/
def State.delivering (s : State) : Bool := !s.pins.rst && s.rspValid && s.pins.rspReady

/-! ### What a clock edge does -/

/-- Deliver (R35), if this edge delivers: the oldest response leaves the queue for the requester. -/
def State.afterDelivery (s : State) : State :=
  match s.queue with
  | e :: q => if s.delivering then { s with queue := q, delivered := s.delivered ++ [e.response] } else s
  | [] => s

/-- The request the requester must hold in the next cycle: one offered now and not accepted (R25). -/
def State.heldRequest (s : State) (accepted : Bool) : Option Request :=
  if s.pins.reqValid && !accepted then some s.pins.request else none

/-- The input ports in the next cycle: the script's, or, where it has ended, no reset and no new request, a
request not yet accepted being held as R25 demands (DESIGN CHOICE, log entry 2). -/
def State.nextPins (s : State) (accepted : Bool) : Inputs :=
  match s.script with
  | p :: _ => p
  | [] => { s.pins with rst := false, reqValid := s.pins.reqValid && !accepted }

/-- The clock cycle ends: the input ports take their next values. -/
def State.nextCycle (s : State) (accepted : Bool) : State :=
  { s with
    pins := s.nextPins accepted
    script := s.script.tail
    pending := s.heldRequest accepted
    cycle := s.cycle + 1 }

/-- An edge with `rst = 1` (R111, R36): Q becomes empty, its responses are lost, nothing is accepted or delivered. -/
def State.resetEdge (s : State) : State :=
  ({ s with queue := [], resetSeen := true } : State).nextCycle false

/-! ### Putting an instruction on the request port -/

/-- The queue's oldest entries, at most `n` of them: a queue already that short is unchanged. -/
def keepOldest {α : Type} : List α → Nat → List α
  | [], _ => []
  | _ :: _, 0 => []
  | e :: q, n + 1 => e :: keepOldest q n

/-- The state in which the requester presents `cmd` and the BFU can accept it at the coming edge: a BFU that has been
reset, no reset now, no older request to hold, and a place free in the queue. A and B stay as they are. -/
def State.present (s : State) (cmd : Cmd) : State :=
  { s with
    queue := keepOldest s.queue Config.extraInflight
    pins := { s.pins with rst := false, reqValid := true, reqCmd := cmd }
    pending := none
    resetSeen := true }

end Sys2Proof.Machine
end

