-- ==== Sys2Proof/Machine/BitFieldCodec.lean ====
section
/-! DEFINITION. The BitFieldCodec family: BFEXT (R89) and BFINS (R91). -/

namespace Sys2Proof.Machine

/-- The response of a well-formed BFEXT to buffer A (R89, the arm of R86). -/
def bfextResponse (bigEndian : Bool) (pos len : Nat) (a : Word) : Response :=
  if fieldOK pos len then
    respond .ok ((endianNormalize bigEndian a >>> fieldShift pos len) &&& mask len)
  else raise .range

/-- The word BFINS makes of buffer A and value B (R91). -/
def insertField (pos len : Nat) (a b : Word) : Word :=
  (a &&& ~~~(mask len <<< fieldShift pos len)) ||| ((b &&& mask len) <<< fieldShift pos len)

/-- The response of a well-formed BFINS to buffer A and value B (R91, the arm of R86). The updated buffer is RESULT:
the BFU writes nothing (R31). -/
def bfinsResponse (pos len : Nat) (a b : Word) : Response :=
  if fieldOK pos len then respond .ok (insertField pos len a b) else raise .range

/-- BFEXT is accepted: its response, on the A sampled at this edge, joins the queue (R26, R34, R89). B is not read. -/
def execBfext (bigEndian : Bool) (pos len : Nat) (s : State) : Host.Outcome State Fault Refusal :=
  .next (s.answer (bfextResponse bigEndian pos len s.pins.reqA))

/-- BFINS is accepted: its response, on the A and B sampled at this edge, joins the queue (R26, R34, R91). -/
def execBfins (pos len : Nat) (s : State) : Host.Outcome State Fault Refusal :=
  .next (s.answer (bfinsResponse pos len s.pins.reqA s.pins.reqB))

end Sys2Proof.Machine
end

