-- ==== Sys2Proof/Machine/ByteAccessor.lean ====
section
/-! DEFINITION. The ByteAccessor family: NTHBYTE (R93). -/

namespace Sys2Proof.Machine

/-- The response of a well-formed NTHBYTE to source word A (R93, the arm of R86): the byte is zero-extended (D13). -/
def nthbyteResponse (n : Nat) (a : Word) : Response :=
  if byteOK n then respond .ok ((a >>> byteShift n) &&& 0xFF) else raise .range

/-- NTHBYTE is accepted: its response, on the A sampled at this edge, joins the queue (R26, R34, R93). B is not read. -/
def execNthbyte (n : Nat) (s : State) : Host.Outcome State Fault Refusal :=
  .next (s.answer (nthbyteResponse n s.pins.reqA))

end Sys2Proof.Machine
end

