-- ==== Sys2Proof/Machine/Dispatch.lean ====
section
/-! DEFINITION. One arm per command: the effect of accepting it. -/

namespace Sys2Proof.Machine

def exec (i : Instr) (s : State) : Host.Outcome State Fault Refusal :=
  match i with
  | .bfext bigEndian startPos numBits => Sys2Proof.Machine.execBfext bigEndian startPos numBits s
  | .bfins startPos numBits => Sys2Proof.Machine.execBfins startPos numBits s
  | .nthbyte byteNum => Sys2Proof.Machine.execNthbyte byteNum s

end Sys2Proof.Machine
end

