-- ==== Sys2Proof/Machine/Execute.lean ====
section
/-! DEFINITION. The function `Execute` of R86, written from the rule's own pseudocode, and the acceptance of a
command word. -/

namespace Sys2Proof.Machine

/-- `Execute(CMD, A, B)` of R86: decode and reserved-bit check, then the range check, then the operation (R76). A word
that is no command is answered ILLEGAL before anything of A, B, POS or LEN is looked at (R70, R85). -/
def execute (cmd : Cmd) (a b : Word) : Response :=
  match decode cmd with
  | .error _ => raise .illegal
  | .ok (.bfext bigEndian pos len) => bfextResponse bigEndian pos len a
  | .ok (.bfins pos len) => bfinsResponse pos len a b
  | .ok (.nthbyte n) => nthbyteResponse n a

/-- Accept the command on the request port: a command runs as its own instruction; a word that is no command is
accepted and answered ILLEGAL like any other (R70). -/
def runOffered (s : State) : Host.Outcome State Fault Refusal :=
  match decode s.pins.reqCmd with
  | .ok i => exec i s
  | .error _ => .next (s.answer (raise .illegal))

/-- What surrounds the acceptance at an edge: the cycle ends. -/
def endAccepted : Host.Outcome State Fault Refusal → Host.Outcome State Fault Refusal
  | .next s => .next (s.nextCycle true)
  | .fault f => .fault f
  | .refused r => .refused r

end Sys2Proof.Machine
end

