-- ==== Sys2Proof/Machine/Step.lean ====
section
/-! DEFINITION. One rising edge of `clk`. -/

namespace Sys2Proof.Machine

/-- One rising edge of `clk` (R24). Reset takes precedence (R99, R113). Otherwise the oldest response is delivered if it
is taken, and the command on the request port is accepted if `req_ready` was 1 at the start of the cycle: both may
happen at one edge (R27, R123). -/
def step (s : State) : Host.Outcome State Fault Refusal :=
  if s.pins.rst then .next s.resetEdge
  else if !s.resetSeen then .refused .noResetSincePowerUp
  else if !s.requestStable then .refused .requestChanged
  else if s.accepting then endAccepted (runOffered s.afterDelivery)
  else .next (s.afterDelivery.nextCycle false)

/-- `s` with the table's word presented on the request port, so that the next edge accepts it (log entry 2). -/
def State.withFetchWord (s : State) (nbits w : Nat) : State := s.present (tableWord nbits w)

end Sys2Proof.Machine
end

