-- ==== Sys2Proof/Machine/Datapath.lean ====
section
/-! DEFINITION. The datapath structure R88 expects: one byte-swap multiplexer, one right shifter shared by BFEXT and
NTHBYTE, two left shifters, a thermometer mask generator (R81), the merge, the comparators of R79, and a result
multiplexer that forces 0 on any error. It is a circuit beside `execute`, not the model's definition of it: R88 says
any circuit with `Execute`'s responses conforms. -/

namespace Sys2Proof.Machine

/-- The byte-swap multiplexer on A, selected by `op = 0` and `be = 0` (R84, R88). -/
def swapMux (op : Nat) (be : Bool) (a : Word) : Word := if op == 0 && !be then byteSwap64 a else a

/-- The amount of the right shifter: `8 * (7 - pos)` for NTHBYTE, `sh` otherwise (R88). -/
def rightAmount (op pos len : Nat) : Nat := if op == 2 then byteShift pos else fieldShift pos len

/-- The mask generator: a thermometer decode of `len` (R81). -/
def maskGen (len : Nat) : Word := BitVec.ofFnLE fun i : Fin 64 => decide (i.val < len)

/-- The merge of BFINS (R88). -/
def mergeField (a fieldMask shifted : Word) : Word := (a &&& ~~~fieldMask) ||| shifted

/-- The range comparators (R79, R88). -/
def inRange (op pos len : Nat) : Bool := if op == 2 then byteOK pos else fieldOK pos len

/-- The value before the result multiplexer. -/
def rawResult (op : Nat) (be : Bool) (pos len : Nat) (a b : Word) : Word :=
  let right := swapMux op be a >>> rightAmount op pos len
  let sh := fieldShift pos len
  match op with
  | 0 => right &&& maskGen len
  | 1 => mergeField a (maskGen len <<< sh) ((b &&& maskGen len) <<< sh)
  | _ => right &&& 0xFF

/-- The whole datapath of R88. -/
def datapath (cmd : Cmd) (a b : Word) : Response :=
  let op := cmdOp cmd
  if !reservedOK cmd then { status := .illegal, result := 0 }
  else if !inRange op (cmdPos cmd) (cmdLen cmd) then { status := .range, result := 0 }
  else { status := .ok, result := rawResult op (cmdBe cmd) (cmdPos cmd) (cmdLen cmd) a b }

end Sys2Proof.Machine
end

