-- ==== Sys2Proof/Machine/Requester.lean ====
section
/-! DEFINITION. The requester side of the port: calls with the source's integer arguments (R66), assembler lines and
pseudo-instructions (R73, R74), the use of STATUS (R118), and the packing of payload bytes (R47). It is the BFU's
environment (R37, R39): `step` uses none of it. -/

namespace Sys2Proof.Machine

/-- What a requester asks for, with the source's `int` arguments (R66), or a raw command word. -/
inductive Call where
  | bfext (bigEndian : Bool) (startPos numBits : Int)
  | bfins (startPos numBits : Int)
  | nthbyte (byteNum : Int)
  | raw (cmd : Cmd)
deriving DecidableEq, Repr

/-- The field value of an integer argument, if it has one: 0 to 127, never truncated (R66). -/
def fieldValue (n : Int) : Option Nat := if 0 ≤ n ∧ n ≤ 127 then some n.toNat else none

/-- The command word of a call, where its arguments have an encoding (R66, R73). -/
def callCommand : Call → Option Cmd
  | .bfext bigEndian startPos numBits =>
    match fieldValue startPos, fieldValue numBits with
    | some pos, some len => some (encode (.bfext bigEndian pos len))
    | _, _ => none
  | .bfins startPos numBits =>
    match fieldValue startPos, fieldValue numBits with
    | some pos, some len => some (encode (.bfins pos len))
    | _, _ => none
  | .nthbyte byteNum =>
    match fieldValue byteNum with
    | some n => some (encode (.nthbyte n))
    | none => none
  | .raw cmd => some cmd

/-- What the requester holds as the call's answer: the BFU's response, or, where an argument has no encoding, the range
violation it must report itself without issuing a command (R66). -/
def callAnswer (c : Call) (a b : Word) : Response :=
  match callCommand c with
  | some cmd => execute cmd a b
  | none => raise .range

/-- A requester's reading of the response port: the reserved STATUS code refuses the run (R68;
93_implementation_defined.md row 4). -/
def readResponse (code : BitVec 2) (result : Word) : Host.Outcome Response Fault Refusal :=
  match statusOfCode code with
  | some status => .next { status := status, result := result }
  | none => .refused .reservedStatus

/-! ### Assembler lines (R73) -/

/-- A data operand of a line: a requester variable or a literal (R73). -/
inductive Source where
  | var (name : Nat)
  | lit (value : Word)
deriving DecidableEq, Repr

/-- The requester's own storage: its variables and its status variable `st` (R73). -/
structure Requester where
  vars : List (Nat × Word)
  st : Status
deriving DecidableEq, Repr

/-- The value of a variable; one that has no value yet reads 0 (DESIGN CHOICE, log entry 10: the requester's own storage,
no part of the BFU). -/
def Requester.var (q : Requester) (name : Nat) : Word := (q.vars.lookup name).getD 0

/-- The value of a data operand. -/
def Requester.value (q : Requester) : Source → Word
  | .var name => q.var name
  | .lit w => w

/-- A line: a call, its destination `rd` and its operands `ra` and `rb`. -/
structure Line where
  call : Call
  rd : Nat
  ra : Source
  rb : Source
deriving DecidableEq, Repr

/-- The requester takes a response: `st <- STATUS`, and only if STATUS = OK, `rd <- RESULT` (R73, R118). -/
def Requester.take (q : Requester) (rd : Nat) (r : Response) : Requester :=
  match r.status with
  | .ok => { vars := (rd, r.result) :: q.vars, st := .ok }
  | .range => { q with st := .range }
  | .illegal => { q with st := .illegal }

/-- One line: issue the command, wait for its response, take it (R73). -/
def Requester.run (q : Requester) (l : Line) : Requester :=
  q.take l.rd (callAnswer l.call (q.value l.ra) (q.value l.rb))

/-- Lines one after another, each issued after the previous response (D26). -/
def Requester.runAll (q : Requester) : List Line → Requester
  | [] => q
  | l :: ls => (q.run l).runAll ls

/-- `BFEXT.BE rd, ra, #pos, #len` (R73). B is not read (R65). -/
def lineBfextBe (rd : Nat) (ra : Source) (pos len : Int) : Line := ⟨.bfext true pos len, rd, ra, .lit 0⟩

/-- `BFEXT.LE rd, ra, #pos, #len` (R73). -/
def lineBfextLe (rd : Nat) (ra : Source) (pos len : Int) : Line := ⟨.bfext false pos len, rd, ra, .lit 0⟩

/-- `BFINS rd, ra, rb, #pos, #len` (R73). -/
def lineBfins (rd : Nat) (ra rb : Source) (pos len : Int) : Line := ⟨.bfins pos len, rd, ra, rb⟩

/-- `NTHBYTE rd, ra, #n` (R73). -/
def lineNthbyte (rd : Nat) (ra : Source) (n : Int) : Line := ⟨.nthbyte n, rd, ra, .lit 0⟩

/-- `BSWAP rd, ra` (R74). -/
def pseudoBswap (rd : Nat) (ra : Source) : List Line := [lineBfextLe rd ra 0 64]

/-- `BFCLR rd, ra, #pos, #len` (R74). -/
def pseudoBfclr (rd : Nat) (ra : Source) (pos len : Int) : List Line := [lineBfins rd ra (.lit 0) pos len]

/-- `BFSET rd, ra, #pos, #len` (R74). -/
def pseudoBfset (rd : Nat) (ra : Source) (pos len : Int) : List Line :=
  [lineBfins rd ra (.lit 0xFFFFFFFFFFFFFFFF) pos len]

/-- `BFINS.LE rd, ra, rb, #pos, #len` with the scratch variable `tmp` (R74, R119). -/
def pseudoBfinsLe (tmp rd : Nat) (ra rb : Source) (pos len : Int) : List Line :=
  pseudoBswap tmp ra ++ [lineBfins tmp (.var tmp) rb pos len] ++ pseudoBswap rd (.var tmp)

/-! ### Payload packing (R47, D21) -/

/-- An 8-byte payload, `p[0]` received first. -/
abbrev Payload := Vector Byte 8

/-- The OPEN parameter `PAYLOAD_PACKING`: how a requester forms the word A from a payload, any function at all (R47, D21). -/
abbrev Packing := Payload → Word

/-- The answer to a call on a payload: the requester forms A by its packing, and the BFU sees only the word (R47). -/
def payloadAnswer (packing : Packing) (c : Call) (p : Payload) (b : Word) : Response := callAnswer c (packing p) b

/-- Big-endian packing: payload byte `k` becomes byte `k` of the word (R47). -/
def packBigEndian : Packing := fun p =>
  p[0] ++ p[1] ++ p[2] ++ p[3] ++ p[4] ++ p[5] ++ p[6] ++ p[7]

/-- Little-endian packing: payload byte `k` becomes byte `7 - k` of the word (R47). -/
def packLittleEndian : Packing := fun p =>
  p[7] ++ p[6] ++ p[5] ++ p[4] ++ p[3] ++ p[2] ++ p[1] ++ p[0]

end Sys2Proof.Machine
end

