-- ==== Sys2Proof/Machine/Sharing.lean ====
section
/-! DEFINITION. Several requesters: the arbiter outside the BFU that merges their commands and routes the responses back
(R37, R55, R107), and the read-modify-write of one buffer by several of them (R53, R117). Every merge order and every
interleaving is an argument: none is chosen (D18, R55; 93_implementation_defined.md rows 6 and 13). `step` uses none of
it. -/

namespace Sys2Proof.Machine

/-- A command with the requester that issued it; a merge order (`ARBITRATION`) is a list of these. -/
structure Tagged where
  issuer : Nat
  request : Request
deriving DecidableEq, Repr

/-- The commands of one requester, in its own order. -/
def issuedBy (who : Nat) (order : List Tagged) : List Request :=
  (order.filter fun t => t.issuer == who).map Tagged.request

/-- The response to a request (R30). -/
def answerOf (r : Request) : Response := execute r.cmd r.a r.b

/-- The arbiter gives each response, in delivery order, to the issuer of the command in the same place of the merge order,
relying on in-order responses (R29, R107); `who` gets these. -/
def routedTo (who : Nat) : List Tagged → List Response → List Response
  | t :: ts, r :: rs => if t.issuer == who then r :: routedTo who ts rs else routedTo who ts rs
  | _, _ => []

/-- How far a requester is with its update of the shared buffer (R53). -/
inductive Phase where
  /-- Nothing done. -/
  | start
  /-- It has read the buffer. -/
  | hasRead (a : Word)
  /-- It holds the answer to its BFINS on the value it read. -/
  | answered (r : Response)
  /-- It has written back. -/
  | finished
deriving DecidableEq, Repr

/-- A requester that inserts `value` at `(pos, len)` into the shared buffer. The two are the source's `int` arguments: one
without an encoding is never truncated into a field (R66). -/
structure Writer where
  value : Word
  pos : Int
  len : Int
  phase : Phase
deriving DecidableEq, Repr

/-- A buffer shared by several requesters. -/
structure Shared where
  buffer : Word
  writers : List Writer
deriving DecidableEq, Repr

/-- One move of one writer: read the buffer, call BFINS on what was read (a range violation without a command where an
argument has no encoding, R66), write back if STATUS = OK (R53, R118). -/
def Writer.move (w : Writer) (buffer : Word) : Writer × Word :=
  match w.phase with
  | .start => ({ w with phase := .hasRead buffer }, buffer)
  | .hasRead a => ({ w with phase := .answered (callAnswer (.bfins w.pos w.len) a w.value) }, buffer)
  | .answered r => ({ w with phase := .finished }, if r.status = .ok then r.result else buffer)
  | .finished => (w, buffer)

/-- Writer number `k` moves; a number that is no writer's moves nothing. -/
def Shared.move (g : Shared) (k : Nat) : Shared :=
  match g.writers[k]? with
  | none => g
  | some w => { buffer := (w.move g.buffer).2, writers := g.writers.set k (w.move g.buffer).1 }

/-- The moves of an interleaving, in order. -/
def Shared.run (g : Shared) : List Nat → Shared
  | [] => g
  | k :: ks => (g.move k).run ks

end Sys2Proof.Machine
end

