-- ==== Sys2Proof/Machine/Transaction.lean ====
section
/-! DEFINITION. The transaction-level model of R33: the queue alone, without time, and its three atomic steps, taken
in any order their guards allow. The depth is an argument (R8). Every edge of `step` is a sequence of these
actions: `State.edgeActions` names it. -/

namespace Sys2Proof.Machine

/-- A step of the transaction-level model, with what the environment supplies. -/
inductive Action where
  /-- Accept(CMD, A, B) (R34). -/
  | accept (request : Request)
  /-- Deliver (R35). -/
  | deliver
  /-- Reset (R36). -/
  | reset
deriving DecidableEq, Repr

/-- One action on Q with what it outputs to the requester, or nothing where the action is not enabled (R34 to R36). -/
def Action.apply (depth : Nat) : Action → List Response → Option (List Response × List Response)
  | .accept r, q => if hasRoom q depth then some (q ++ [execute r.cmd r.a r.b], []) else none
  | .deliver, r :: q => some (q, [r])
  | .deliver, [] => none
  | .reset, _ => some ([], [])

/-- A sequence of actions: the queue after them and all they output, in order. -/
def runActions (depth : Nat) : List Action → List Response → Option (List Response × List Response)
  | [], q => some (q, [])
  | x :: xs, q =>
    match x.apply depth q with
    | none => none
    | some (q', out) =>
      match runActions depth xs q' with
      | none => none
      | some (q'', out') => some (q'', out ++ out')

/-- The responses in flight, without their times: the Q of R33. -/
def State.responses (s : State) : List Response := s.queue.map Entry.response

/-- The actions the coming clock edge performs. An acceptance stands before a delivery because its guard is read
before the delivery frees a place (R27). -/
def State.edgeActions (s : State) : List Action :=
  if s.pins.rst then [.reset]
  else (if s.accepting then [.accept s.pins.request] else []) ++ (if s.delivering then [.deliver] else [])

end Sys2Proof.Machine
end

