-- ==== Sys2Proof/Safety.lean ====
section
/-! DEFINITION. What claims call a sound state, an error-free run, a run of the machine and the commands a run accepts. -/

namespace Sys2Proof.Machine

/-- A response the BFU can give: RESULT is 0 unless STATUS is OK (R67, R97). -/
def Response.Sound (r : Response) : Prop := r.status ≠ .ok → r.result = 0

/-- What every reachable state satisfies: at most `MAX_INFLIGHT` commands in flight (R32), accepted in different cycles,
oldest first, all before this one (R29, R123), and every response, in flight or delivered, one the BFU can give. -/
structure State.Inv (s : State) : Prop where
  depth : s.queue.length ≤ Config.maxInflight
  ordered : s.queue.Pairwise fun x y => x.acceptedAt < y.acceptedAt
  past : ∀ e ∈ s.queue, e.acceptedAt < s.cycle
  sound : ∀ e ∈ s.queue, e.response.Sound
  deliveredSound : ∀ r ∈ s.delivered, r.Sound

/-- The premise "no RANGE or ILLEGAL response" of a claim about a requester
(93_implementation_defined.md rows 1 and 3). -/
def NoErrors (rs : List Response) : Prop := ∀ r ∈ rs, r.status = .ok

/-- The machine is at `t` after `n` edges from `s`, none of them refused. -/
def RunsTo (n : Nat) (s t : State) : Prop := Sys2Proof.core.run n s = .next t

/-- No edge of the run of `n` edges from `s` has `rst = 1`. -/
def NoResetDuring (n : Nat) (s : State) : Prop := ∀ k < n, ∀ t, RunsTo k s t → t.pins.rst = false

/-- In the run of `n` edges from `s`, every `K` cycles in a row hold one with `rsp_ready = 1` (R124). -/
def TakesWithin (K n : Nat) (s : State) : Prop :=
  ∀ k, k + K ≤ n → ∃ j, k ≤ j ∧ j < k + K ∧ ∀ t, RunsTo j s t → t.pins.rspReady = true

/-- The command the coming edge accepts, if it accepts one. -/
def State.acceptedNow (s : State) : List Request := if s.accepting then [s.pins.request] else []

/-- The commands accepted by the next `n` edges, in order. -/
def acceptedDuring : Nat → State → List Request
  | 0, _ => []
  | n + 1, s =>
    match step s with
    | .next t => s.acceptedNow ++ acceptedDuring n t
    | .fault _ => []
    | .refused _ => []

end Sys2Proof.Machine
end

