-- ==== Sys2Proof/Certificates/Slice0/Obligations.lean ====
section
/-! DEFINITION. The statements for the provers. Each docstring names the rule of spec/ it formalises. -/

open Sys2Proof Sys2Proof.Machine

/-! ### The command word -/

/-- R59, R75: decoding the encoder's word gives the command back, every operand at every value the fields hold. -/
def Obligations.DecodeOfEncodeIsIdentity : Prop :=
  ∀ i : Instr, i.WellFormed → decode (encode i) = .ok i

/-- R69, R72: a word that decodes is the encoder's word of what it decodes to, so each command has one word. -/
def Obligations.EncodeOfDecodeIsIdentity : Prop :=
  ∀ (cmd : Cmd) (i : Instr), decode cmd = .ok i → i.WellFormed ∧ encode i = cmd

/-- R75: `CMD = OP | (BE << 4) | (POS << 8) | (LEN << 16)` with the reserved bits 0, as a sum of the fields' weights, and
the six examples of the table beside it, an inference the spec marks as derived from the field layout. -/
def Obligations.EncodingFunctionAndExamples : Prop :=
  (∀ (be : Bool) (pos len : Nat), pos ≤ 127 → len ≤ 127 →
    (encode (.bfext be pos len)).toNat = 0 + 16 * be.toNat + 256 * pos + 65536 * len) ∧
  (∀ pos len : Nat, pos ≤ 127 → len ≤ 127 →
    (encode (.bfins pos len)).toNat = 1 + 256 * pos + 65536 * len) ∧
  (∀ n : Nat, n ≤ 127 → (encode (.nthbyte n)).toNat = 2 + 256 * n) ∧
  encode (.bfext true 14 6) = 0x00060E10#32 ∧ encode (.bfext false 0 64) = 0x00400000#32 ∧
  encode (.bfins 14 6) = 0x00060E01#32 ∧ encode (.bfins 0 64) = 0x00400001#32 ∧
  encode (.nthbyte 0) = 0x00000002#32 ∧ encode (.nthbyte 7) = 0x00000702#32

/-- R59, R75: the words of R75's table decode to the commands it writes them for. -/
def Obligations.TableWordsDecode : Prop :=
  decode 0x00060E10#32 = .ok (.bfext true 14 6) ∧ decode 0x00400000#32 = .ok (.bfext false 0 64) ∧
  decode 0x00060E01#32 = .ok (.bfins 14 6) ∧ decode 0x00400001#32 = .ok (.bfins 0 64) ∧
  decode 0x00000002#32 = .ok (.nthbyte 0) ∧ decode 0x00000702#32 = .ok (.nthbyte 7)

/-- R69: the decoder selects an operation exactly by its row's mask and match, with the row's fields; a row's mask is
OP's bits together with the reserved bits of R64. That no row matches exactly where decoding fails is the clause on
illegal words of 30_encoding.md section 4; that at most one row matches is an inference the spec marks as derived. -/
def Obligations.DecoderSelectsByMaskAndMatch : Prop :=
  (∀ cmd : Cmd, cmd &&& 0xFF8080EF#32 = 0x00000000#32 ↔
    decode cmd = .ok (.bfext (cmd.getLsbD 4) (cmd.extractLsb' 8 7).toNat (cmd.extractLsb' 16 7).toNat)) ∧
  (∀ cmd : Cmd, cmd &&& 0xFF8080FF#32 = 0x00000001#32 ↔
    decode cmd = .ok (.bfins (cmd.extractLsb' 8 7).toNat (cmd.extractLsb' 16 7).toNat)) ∧
  (∀ cmd : Cmd, cmd &&& 0xFFFF80FF#32 = 0x00000002#32 ↔
    decode cmd = .ok (.nthbyte (cmd.extractLsb' 8 7).toNat)) ∧
  (∀ cmd : Cmd, (∀ row ∈ opcodeRows, row.selects cmd = false) ↔ ∃ e, decode cmd = .error e) ∧
  (opcodeRows.map OpcodeRow.mask =
    [0x0000000F#32 ||| 0xFF8080E0#32, 0x0000000F#32 ||| 0xFF8080F0#32, 0x0000000F#32 ||| 0xFFFF80F0#32]) ∧
  (∀ (cmd : Cmd), ∀ r ∈ opcodeRows, ∀ r' ∈ opcodeRows, r.selects cmd = true → r'.selects cmd = true → r = r')

/-- R70: a word that matches no row has OP 3 to 15 or a reserved bit of its operation set; it is accepted and answered
(ILLEGAL, 0) in order like any other, whatever A and B are, and the BFU goes on. -/
def Obligations.IllegalWordIsAnsweredInOrder : Prop :=
  (∀ cmd : Cmd, (∀ row ∈ opcodeRows, row.selects cmd = false) ↔
    (3 ≤ (cmd.extractLsb' 0 4).toNat ∨
      ((cmd.extractLsb' 0 4).toNat = 0 ∧ cmd &&& 0xFF8080E0#32 ≠ 0#32) ∨
      ((cmd.extractLsb' 0 4).toNat = 1 ∧ cmd &&& 0xFF8080F0#32 ≠ 0#32) ∨
      ((cmd.extractLsb' 0 4).toNat = 2 ∧ cmd &&& 0xFFFF80F0#32 ≠ 0#32))) ∧
  (∀ s : State, s.pins.rst = false → s.resetSeen = true → s.requestStable = true → s.pins.reqValid = true →
    s.queue.length < Config.maxInflight → (∀ row ∈ opcodeRows, row.selects s.pins.reqCmd = false) →
    ∃ t, step s = .next t ∧ t.queue = s.afterDelivery.queue ++ [⟨⟨.illegal, 0⟩, s.cycle⟩] ∧
      t.delivered = s.afterDelivery.delivered)

/-! ### The primitives of the datapath -/

/-- R82: for each k in 0..7, bits 8k+7 to 8k of the swapped word are bits 63-8k to 56-8k of the word, so byte k of the
result is byte 7-k. -/
def Obligations.ByteSwapReversesBytes : Prop :=
  ∀ (w : Word) (k : Nat), k < 8 →
    (byteSwap64 w).extractLsb' (8 * k) 8 = w.extractLsb' (56 - 8 * k) 8 ∧
    byteOf (byteSwap64 w) k = byteOf w (7 - k)

/-- R83 (an inference the spec marks as derived): swapping twice is the identity, and each bit keeps its place in its
byte. -/
def Obligations.ByteSwapIsInvolutive : Prop :=
  ∀ w : Word, byteSwap64 (byteSwap64 w) = w ∧
    ∀ k < 8, ∀ j < 8, (byteSwap64 w).getLsbD (8 * k + j) = w.getLsbD (8 * (7 - k) + j)

/-- R81: the mask's bits, its value, and the full-width mask. -/
def Obligations.MaskIsThermometer : Prop :=
  (∀ len : Nat, 1 ≤ len → len ≤ 64 →
    (∀ i : Nat, (mask len).getLsbD i = decide (i < len)) ∧ (mask len).toNat = 2 ^ len - 1) ∧
  mask 64 = 0xFFFFFFFFFFFFFFFF#64

/-- R79, R80: the range checks, the shift amount's range, and the field it points at: bit `sh + i` of a word is its
source bit `pos + len - 1 - i` (R10). -/
def Obligations.FieldGeometry : Prop :=
  (∀ pos len : Nat, fieldOK pos len = true ↔ (1 ≤ len ∧ len ≤ 64 ∧ pos + len ≤ 64)) ∧
  (∀ n : Nat, byteOK n = true ↔ n ≤ 7) ∧
  (∀ pos len : Nat, fieldOK pos len = true →
    pos ≤ 63 ∧ len ≤ 64 - pos ∧ fieldShift pos len ≤ 63 ∧ pos + len + fieldShift pos len = 64 ∧
    ∀ (w : Word), ∀ i < len, w.getLsbD (fieldShift pos len + i) = w.getMsbD (pos + len - 1 - i))

/-! ### What the commands do -/

/-- R89, R34: BFEXT of a field in range completes: it appends (OK, r), where bit i of r is the field's bit, source position
`pos + len - 1 - i` of the normalized buffer, below `len`, and 0 above; nothing else of the state changes. -/
def Obligations.BfextCompletesWithField : Prop :=
  ∀ (be : Bool) (pos len : Nat) (s : State), 1 ≤ len → len ≤ 64 → pos + len ≤ 64 →
    ∃ r : Word,
      exec (.bfext be pos len) s = .next { s with queue := s.queue ++ [⟨⟨.ok, r⟩, s.cycle⟩] } ∧
      ∀ i < 64, r.getLsbD i =
        (decide (i < len) && (if be then s.pins.reqA else byteSwap64 s.pins.reqA).getMsbD (pos + len - 1 - i))

/-- R91, R34: BFINS at a field in range completes: it appends (OK, r), where source bit p of r is the value's bit inside the
field and the buffer's bit outside it; nothing else of the state changes. -/
def Obligations.BfinsCompletesWithUpdatedWord : Prop :=
  ∀ (pos len : Nat) (s : State), 1 ≤ len → len ≤ 64 → pos + len ≤ 64 →
    ∃ r : Word,
      exec (.bfins pos len) s = .next { s with queue := s.queue ++ [⟨⟨.ok, r⟩, s.cycle⟩] } ∧
      ∀ p < 64, r.getMsbD p =
        if pos ≤ p ∧ p < pos + len then s.pins.reqB.getLsbD (pos + len - 1 - p) else s.pins.reqA.getMsbD p

/-- R93, R34: NTHBYTE of a byte in range completes: it appends (OK, r), where r is bits 63-8n to 56-8n of the word,
zero-extended; nothing else of the state changes. -/
def Obligations.NthbyteCompletesWithByte : Prop :=
  ∀ (n : Nat) (s : State), n ≤ 7 →
    exec (.nthbyte n) s = .next
      { s with queue := s.queue ++ [⟨⟨.ok, (s.pins.reqA.extractLsb' (56 - 8 * n) 8).setWidth 64⟩, s.cycle⟩] }

/-- R96, R97: a field or byte out of range is answered (RANGE, 0), and nothing else of the state changes. For numbers over 127,
which have no encoding, this is the model's choice (log entry 16, DEDUCED). -/
def Obligations.OutOfRangeIsAnsweredRange : Prop :=
  (∀ (be : Bool) (pos len : Nat) (s : State), (len = 0 ∨ 64 < len ∨ 64 < pos + len) →
    exec (.bfext be pos len) s = .next { s with queue := s.queue ++ [⟨⟨.range, 0⟩, s.cycle⟩] } ∧
    exec (.bfins pos len) s = .next { s with queue := s.queue ++ [⟨⟨.range, 0⟩, s.cycle⟩] }) ∧
  (∀ (n : Nat) (s : State), 7 < n →
    exec (.nthbyte n) s = .next { s with queue := s.queue ++ [⟨⟨.range, 0⟩, s.cycle⟩] })

/-- R51, R52, R97: every command completes in every state; its only effect is one response, never ILLEGAL, whose RESULT is 0
unless its STATUS is OK. For commands that are not well formed, which no word decodes to, this is the model's choice (log
entry 16, DEDUCED). -/
def Obligations.EveryCommandOnlyAppendsOneResponse : Prop :=
  ∀ (i : Instr) (s : State), ∃ r : Response,
    exec i s = .next { s with queue := s.queue ++ [⟨r, s.cycle⟩] } ∧ r.status ≠ .illegal ∧ r.Sound

/-- R85, R86: `Execute`, from the bits of CMD, in the order of R76: the reserved check, then the range check, then the
operation, as arithmetic on the word. -/
def Obligations.ExecuteFollowsItsPseudocode : Prop :=
  ∀ (cmd : Cmd) (a b : Word),
    let op := (cmd.extractLsb' 0 4).toNat
    let pos := (cmd.extractLsb' 8 7).toNat
    let len := (cmd.extractLsb' 16 7).toNat
    let sh := 64 - pos - len
    (op = 0 →
      (cmd &&& 0xFF8080E0#32 ≠ 0#32 → execute cmd a b = ⟨.illegal, 0⟩) ∧
      (cmd &&& 0xFF8080E0#32 = 0#32 → ¬(1 ≤ len ∧ len ≤ 64 ∧ pos + len ≤ 64) → execute cmd a b = ⟨.range, 0⟩) ∧
      (cmd &&& 0xFF8080E0#32 = 0#32 → (1 ≤ len ∧ len ≤ 64 ∧ pos + len ≤ 64) →
        (execute cmd a b).status = .ok ∧
        (execute cmd a b).result.toNat =
          (if cmd.getLsbD 4 then a else byteSwap64 a).toNat / 2 ^ sh % 2 ^ len)) ∧
    (op = 1 →
      (cmd &&& 0xFF8080F0#32 ≠ 0#32 → execute cmd a b = ⟨.illegal, 0⟩) ∧
      (cmd &&& 0xFF8080F0#32 = 0#32 → ¬(1 ≤ len ∧ len ≤ 64 ∧ pos + len ≤ 64) → execute cmd a b = ⟨.range, 0⟩) ∧
      (cmd &&& 0xFF8080F0#32 = 0#32 → (1 ≤ len ∧ len ≤ 64 ∧ pos + len ≤ 64) →
        (execute cmd a b).status = .ok ∧
        (execute cmd a b).result.toNat =
          a.toNat / 2 ^ (sh + len) * 2 ^ (sh + len) + b.toNat % 2 ^ len * 2 ^ sh + a.toNat % 2 ^ sh)) ∧
    (op = 2 →
      (cmd &&& 0xFFFF80F0#32 ≠ 0#32 → execute cmd a b = ⟨.illegal, 0⟩) ∧
      (cmd &&& 0xFFFF80F0#32 = 0#32 → 7 < pos → execute cmd a b = ⟨.range, 0⟩) ∧
      (cmd &&& 0xFFFF80F0#32 = 0#32 → pos ≤ 7 →
        (execute cmd a b).status = .ok ∧
        (execute cmd a b).result.toNat = a.toNat / 2 ^ (8 * (7 - pos)) % 256)) ∧
    (3 ≤ op → execute cmd a b = ⟨.illegal, 0⟩)

/-- R87 (its second part, an inference the spec marks as derived): BFEXT, NTHBYTE and every error response do not depend on
B; an ILLEGAL response depends on neither operand. -/
def Obligations.ResponsesIgnoreUnusedOperands : Prop :=
  ∀ (cmd : Cmd) (a a' b b' : Word),
    ((cmd.extractLsb' 0 4).toNat ≠ 1 → execute cmd a b = execute cmd a b') ∧
    ((execute cmd a b).status ≠ .ok → execute cmd a b' = execute cmd a b) ∧
    ((execute cmd a b).status = .illegal → execute cmd a' b' = execute cmd a b)

/-- R90 (laws the spec marks as derived): endian consistency, full-width identity, byte swap by extract, width bound. -/
def Obligations.BfextLaws : Prop :=
  (∀ (pos len : Nat) (a b : Word), 1 ≤ len → len ≤ 64 → pos + len ≤ 64 →
    execute (encode (.bfext false pos len)) a b = execute (encode (.bfext true pos len)) (byteSwap64 a) b) ∧
  (∀ a b : Word, execute (encode (.bfext true 0 64)) a b = ⟨.ok, a⟩) ∧
  (∀ a b : Word, execute (encode (.bfext false 0 64)) a b = ⟨.ok, byteSwap64 a⟩) ∧
  (∀ (be : Bool) (pos len : Nat) (a b : Word), 1 ≤ len → len ≤ 64 → pos + len ≤ 64 →
    (execute (encode (.bfext be pos len)) a b).status = .ok ∧
    (execute (encode (.bfext be pos len)) a b).result.toNat < 2 ^ len)

/-- R92 (laws the spec marks as derived): round trip and mask truncation, frame, idempotence of BFINS. -/
def Obligations.BfinsLaws : Prop :=
  ∀ (pos len : Nat) (a b c : Word), 1 ≤ len → len ≤ 64 → pos + len ≤ 64 →
    ∃ a' : Word, execute (encode (.bfins pos len)) a b = ⟨.ok, a'⟩ ∧
      execute (encode (.bfext true pos len)) a' c = ⟨.ok, BitVec.ofNat 64 (b.toNat % 2 ^ len)⟩ ∧
      (b.toNat < 2 ^ len → execute (encode (.bfext true pos len)) a' c = ⟨.ok, b⟩) ∧
      a' &&& ~~~(mask len <<< fieldShift pos len) = a &&& ~~~(mask len <<< fieldShift pos len) ∧
      execute (encode (.bfins pos len)) a' b = ⟨.ok, a'⟩

/-- R94 (an inference the spec marks as derived): NTHBYTE n is the big-endian extract of 8 bits at 8n. -/
def Obligations.NthbyteIsByteAlignedExtract : Prop :=
  ∀ (n : Nat) (a b c : Word), n ≤ 7 →
    execute (encode (.nthbyte n)) a b = execute (encode (.bfext true (8 * n) 8)) a c

/-- R88: the datapath the spec expects gives `Execute`'s response to every command word and operands. -/
def Obligations.DatapathConformsToExecute : Prop :=
  ∀ (cmd : Cmd) (a b : Word), datapath cmd a b = execute cmd a b

/-- R68: the three codes and what they stand for; 0b11 stands for nothing, is refused by the requester's decoder, and is never
presented with `rsp_valid` 1 by a BFU that has been reset. -/
def Obligations.StatusCodesAreTheTables : Prop :=
  statusCode .ok = 0b00#2 ∧ statusCode .range = 0b01#2 ∧ statusCode .illegal = 0b10#2 ∧
  (∀ (st : Status) (w : Word), readResponse (statusCode st) w = .next ⟨st, w⟩) ∧
  (∀ w : Word, readResponse 0b11#2 w = .refused .reservedStatus) ∧
  (∀ s : State, s.resetSeen = true → s.outputs.rspValid = true → s.outputs.rspStatus ≠ 0b11#2)

/-! ### The clock edge -/

/-- R40, R112: in the first cycle after reset the queue is empty, `req_ready` is 1 and `rsp_valid` is 0. -/
def Obligations.ResetStateIsReadyAndEmpty : Prop :=
  State.reset.queue = [] ∧ State.reset.outputs.reqReady = true ∧ State.reset.outputs.rspValid = false

/-- R111: at an edge with `rst` = 1, in every state, the queue becomes empty, nothing is accepted or delivered, and both
handshake outputs are 0 in that cycle. -/
def Obligations.ResetEdgeEmptiesTheQueue : Prop :=
  ∀ s : State, s.pins.rst = true →
    s.outputs.reqReady = false ∧ s.outputs.rspValid = false ∧ s.accepting = false ∧ s.delivering = false ∧
    ∃ t, step s = .next t ∧ t.queue = [] ∧ t.delivered = s.delivered

/-- R112, R113: one reset edge suffices from every state: in a next cycle without reset the BFU is ready and has nothing to
deliver. -/
def Obligations.OneResetEdgeSuffices : Prop :=
  ∀ s t : State, s.pins.rst = true → step s = .next t → t.pins.rst = false →
    t.resetSeen = true ∧ t.queue = [] ∧ t.outputs.reqReady = true ∧ t.outputs.rspValid = false

/-- R24, R34: the edge at which a well-formed command is accepted runs exactly that command: it is the command's own next
state, taken after this edge's delivery, moved on by one clock cycle; where nothing is delivered the command runs on the
state itself. -/
def Obligations.StepRunsTheDecodedCommand : Prop :=
  ∀ (s : State) (i : Instr), s.pins.rst = false → s.resetSeen = true → s.requestStable = true →
    s.pins.reqValid = true → s.queue.length < Config.maxInflight → decode s.pins.reqCmd = .ok i →
    (∃ u, exec i s.afterDelivery = .next u ∧ step s = .next (u.nextCycle true)) ∧
    (s.delivering = false → s.afterDelivery = s)

/-- R24, R34 (withFetchWord: log entry 2): a word of the opcode table presented by the requester is accepted by the very next
edge of every state. -/
def Obligations.PresentedTableWordRunsNext : Prop :=
  ∀ (s : State) (w : Nat) (i : Instr), decodeTableWord 32 w = some i →
    ∃ u, exec i (s.withFetchWord 32 w).afterDelivery = .next u ∧
      step (s.withFetchWord 32 w) = .next (u.nextCycle true)

/-- R26, R30, R34: an accepted command's response, `Execute` of the values on the ports at that edge, becomes the newest in
flight. -/
def Obligations.AcceptanceAppendsExecute : Prop :=
  ∀ s : State, s.pins.rst = false → s.resetSeen = true → s.requestStable = true →
    s.pins.reqValid = true → s.queue.length < Config.maxInflight →
    ∃ t, step s = .next t ∧ t.pending = none ∧
      t.queue = s.afterDelivery.queue ++ [⟨execute s.pins.reqCmd s.pins.reqA s.pins.reqB, s.cycle⟩]

/-- R24: at an edge without reset, a command is accepted exactly if `req_valid` and `req_ready` are 1, a response delivered
exactly if `rsp_valid` and `rsp_ready` are 1, and no other edge transfers anything. The BFU stays operational (R112): it still
counts as reset, which the model's own field `resetSeen` records (log entry 5). -/
def Obligations.EdgeTransfersExactlyByHandshake : Prop :=
  ∀ s : State, s.pins.rst = false → s.resetSeen = true → s.requestStable = true →
    ∃ t, step s = .next t ∧ t.resetSeen = true ∧
      (let rest := if s.outputs.rspValid && s.pins.rspReady then s.queue.tail else s.queue
       let out := if s.outputs.rspValid && s.pins.rspReady then s.responses.take 1 else []
       t.delivered = s.delivered ++ out ∧
       t.queue = if s.pins.reqValid && s.outputs.reqReady then
           rest ++ [⟨execute s.pins.reqCmd s.pins.reqA s.pins.reqB, s.cycle⟩]
         else rest)

/-- R27: `req_ready` is 1 exactly when `rst` is 0 and fewer than `MAX_INFLIGHT` commands are in flight at the start of the
cycle; with a full queue a delivery does not let a command in at the same edge. -/
def Obligations.RequestReadyBelowDepth : Prop :=
  (∀ s : State, s.resetSeen = true →
    (s.outputs.reqReady = true ↔ s.pins.rst = false ∧ s.queue.length < Config.maxInflight)) ∧
  (∀ s t : State, s.pins.rst = false → s.resetSeen = true → s.queue.length = Config.maxInflight →
    s.outputs.rspValid = true → s.pins.rspReady = true → step s = .next t → t.queue = s.queue.tail)

/-- R28 and R122, with the cycle after the accepting edge counted as one cycle later (log entry 3,
DEDUCED): `rsp_valid` is 0 with nothing in flight and in the cycle that accepts the oldest command, 1 from `RSP_LATENCY`
cycles later on, and while it is 1 the response ports carry the oldest response. -/
def Obligations.ResponseValidWithinLatency : Prop :=
  1 ≤ Config.rspLatency ∧
  ∀ s : State, s.resetSeen = true → s.pins.rst = false →
    (s.queue = [] → s.outputs.rspValid = false) ∧
    (∀ e q, s.queue = e :: q →
      (s.cycle ≤ e.acceptedAt → s.outputs.rspValid = false) ∧
      (e.acceptedAt + Config.rspLatency ≤ s.cycle → s.outputs.rspValid = true) ∧
      (s.outputs.rspValid = true →
        s.outputs.rspStatus = statusCode e.response.status ∧ s.outputs.rspResult = e.response.result))

/-- R25: a response presented and not taken is presented unchanged in the next cycle, unless that cycle is a reset. -/
def Obligations.ResponseHeldUntilTaken : Prop :=
  ∀ s t : State, s.resetSeen = true → s.outputs.rspValid = true → s.pins.rspReady = false →
    step s = .next t → t.pins.rst = false →
    t.outputs.rspValid = true ∧ t.outputs.rspStatus = s.outputs.rspStatus ∧
      t.outputs.rspResult = s.outputs.rspResult

/-- R114, R120 and the model's refusals (log entries 5 and 6): a step never faults; it is refused exactly at an edge without
reset before the first reset, and at one where a request offered and not accepted was changed or withdrawn. -/
def Obligations.RefusedExactlyOutsideTheRules : Prop :=
  ∀ s : State,
    (∀ f, step s ≠ .fault f) ∧
    (step s = .refused .noResetSincePowerUp ↔ s.pins.rst = false ∧ s.resetSeen = false) ∧
    (step s = .refused .requestChanged ↔ s.pins.rst = false ∧ s.resetSeen = true ∧
      ∃ r, s.pending = some r ∧ ¬(s.pins.reqValid = true ∧ s.pins.request = r)) ∧
    (∀ r, step s = .refused r → r = .noResetSincePowerUp ∨ r = .requestChanged)

/-- R25, R120: what the requester must hold after an edge is the request it offered there, if it was not accepted. At a reset
edge an older pending request is forgotten and the duty starts anew (log entry 6, the model's reading, DEDUCED); the cycle number,
which advances by one, is the model's own (log entry 8, DESIGN CHOICE). -/
def Obligations.UnacceptedRequestMustBeHeld : Prop :=
  ∀ s t : State, step s = .next t →
    t.pending = (if s.pins.reqValid && !s.accepting then some s.pins.request else none) ∧ t.cycle = s.cycle + 1

/-- The model's own environment (log entry 2, a design choice): the input ports of the next cycle are the script's next entry,
and after the script's end they hold no reset and no request but one not yet accepted, unchanged. -/
def Obligations.NextInputsComeFromTheScript : Prop :=
  ∀ s t : State, step s = .next t →
    (∀ p ps, s.script = p :: ps → t.pins = p ∧ t.script = ps) ∧
    (s.script = [] → t.script = [] ∧ t.pins.rst = false ∧ t.pins.request = s.pins.request ∧
      t.pins.reqValid = (s.pins.reqValid && !s.accepting) ∧ t.pins.rspReady = s.pins.rspReady)

/-- R22: the response a command gets depends on its CMD, A and B alone: whatever else two states
differ in, the same request is given the same response. -/
def Obligations.ResponseDependsOnRequestAlone : Prop :=
  ∀ s s' : State, s.pins.rst = false → s.resetSeen = true → s.requestStable = true → s.accepting = true →
    s'.pins.rst = false → s'.resetSeen = true → s'.requestStable = true → s'.accepting = true →
    s.pins.request = s'.pins.request →
    ∃ t t' q q' r, step s = .next t ∧ step s' = .next t' ∧
      t.queue = q ++ [⟨r, s.cycle⟩] ∧ t'.queue = q' ++ [⟨r, s'.cycle⟩]

/-! ### Invariants, order, refinement, progress -/

/-- R32, R67, R29: the invariant of Safety.lean is kept by every edge. -/
def Obligations.InvariantKeptByEveryEdge : Prop :=
  ∀ s t : State, s.Inv → step s = .next t → t.Inv

/-- R40: the state after reset has the invariant. -/
def Obligations.InvariantHasResetState : Prop := State.reset.Inv

/-- R29, R32: in every run without reset, what has been delivered followed by what is in flight is what was there at the start
followed by the responses of the commands accepted in the run: one response each, in acceptance order. -/
def Obligations.OneResponseEachInAcceptanceOrder : Prop :=
  ∀ (n : Nat) (s t : State), NoResetDuring n s → RunsTo n s t →
    t.delivered ++ t.responses = s.delivered ++ s.responses ++ (acceptedDuring n s).map answerOf

/-- R34, R35, R36: when each transaction-level step is enabled, and its effect. -/
def Obligations.TransactionStepsOfTheSpec : Prop :=
  ∀ (depth : Nat) (q : List Response) (r : Request) (x : Response),
    (q.length < depth → (Action.accept r).apply depth q = some (q ++ [execute r.cmd r.a r.b], [])) ∧
    (depth ≤ q.length → (Action.accept r).apply depth q = none) ∧
    Action.deliver.apply depth (x :: q) = some (q, [x]) ∧ Action.deliver.apply depth [] = none ∧
    Action.reset.apply depth q = some ([], [])

/-- R33: every clock edge is a sequence of enabled transaction-level steps on the queue, and what they output is what the edge
delivers. -/
def Obligations.EdgeRefinesTransactions : Prop :=
  ∀ s t : State, step s = .next t →
    ∃ out, runActions Config.maxInflight s.edgeActions s.responses = some (t.responses, out) ∧
      t.delivered = s.delivered ++ out

/-- R124, deliveries: without reset, and with a response taken at least once in every `K` cycles, every command in flight is
delivered, in order, within `RSP_LATENCY` cycles and `K` more for each of them. -/
def Obligations.EveryResponseDeliveredInBoundedTime : Prop :=
  ∀ (K : Nat) (s t : State), s.Inv →
    NoResetDuring (Config.rspLatency + K * s.queue.length) s →
    TakesWithin K (Config.rspLatency + K * s.queue.length) s →
    RunsTo (Config.rspLatency + K * s.queue.length) s t →
    (s.delivered ++ s.responses) <+: t.delivered

/-- R124, acceptances: under the same conditions a command offered is accepted within `RSP_LATENCY + K + 1` cycles. -/
def Obligations.EveryOfferAcceptedInBoundedTime : Prop :=
  ∀ (K : Nat) (s t : State), s.Inv → s.pins.reqValid = true →
    NoResetDuring (Config.rspLatency + K + 1) s → TakesWithin K (Config.rspLatency + K + 1) s →
    RunsTo (Config.rspLatency + K + 1) s t →
    ∃ rs, acceptedDuring (Config.rspLatency + K + 1) s = s.pins.request :: rs

/-! ### The requester side -/

/-- R66, R79: a call with the source's integer arguments is answered OK exactly when they meet the source's invariant, and
(RANGE, 0) otherwise, negative and oversized ones included; an argument without an encoding issues no command. -/
def Obligations.IntegerCallsNeverWrap : Prop :=
  (∀ (be : Bool) (startPos numBits : Int) (a b : Word),
    (0 ≤ startPos ∧ 1 ≤ numBits ∧ numBits ≤ 64 ∧ startPos + numBits ≤ 64 →
      (callAnswer (.bfext be startPos numBits) a b).status = .ok ∧
      (callAnswer (.bfins startPos numBits) a b).status = .ok) ∧
    (¬(0 ≤ startPos ∧ 1 ≤ numBits ∧ numBits ≤ 64 ∧ startPos + numBits ≤ 64) →
      callAnswer (.bfext be startPos numBits) a b = ⟨.range, 0⟩ ∧
      callAnswer (.bfins startPos numBits) a b = ⟨.range, 0⟩)) ∧
  (∀ (byteNum : Int) (a b : Word),
    (0 ≤ byteNum ∧ byteNum ≤ 7 → (callAnswer (.nthbyte byteNum) a b).status = .ok) ∧
    (¬(0 ≤ byteNum ∧ byteNum ≤ 7) → callAnswer (.nthbyte byteNum) a b = ⟨.range, 0⟩)) ∧
  (∀ (be : Bool) (x y : Int), (x < 0 ∨ 127 < x) →
    callCommand (.bfext be x y) = none ∧ callCommand (.bfext be y x) = none ∧
    callCommand (.bfins x y) = none ∧ callCommand (.bfins y x) = none ∧ callCommand (.nthbyte x) = none)

/-- R73, R118: a line whose answer is not OK leaves every variable as it was and records the status. -/
def Obligations.ErrorLinesLeaveVariables : Prop :=
  ∀ (q : Requester) (l : Line), (callAnswer l.call (q.value l.ra) (q.value l.rb)).status ≠ .ok →
    (q.run l).vars = q.vars ∧ (q.run l).st = (callAnswer l.call (q.value l.ra) (q.value l.rb)).status

/-- R74: BSWAP writes the swapped word; BFCLR clears and BFSET sets the field's bits and leaves the others. -/
def Obligations.SwapClearAndSetPseudoInstructions : Prop :=
  ∀ (q : Requester) (rd : Nat) (ra : Source) (pos len : Nat), 1 ≤ len → len ≤ 64 → pos + len ≤ 64 →
    (q.runAll (pseudoBswap rd ra)).var rd = byteSwap64 (q.value ra) ∧
    (∀ p < 64, ((q.runAll (pseudoBfclr rd ra pos len)).var rd).getMsbD p =
      if pos ≤ p ∧ p < pos + len then false else (q.value ra).getMsbD p) ∧
    (∀ p < 64, ((q.runAll (pseudoBfset rd ra pos len)).var rd).getMsbD p =
      if pos ≤ p ∧ p < pos + len then true else (q.value ra).getMsbD p)

/-- R74, R119: BFINS.LE inserts the value into the field of the byte-swapped buffer and leaves the buffer's other bits; the
scratch variable is not one of the line's operands. -/
def Obligations.LittleEndianInsertPseudoInstruction : Prop :=
  ∀ (q : Requester) (tmp rd : Nat) (ra rb : Source) (pos len : Nat), 1 ≤ len → len ≤ 64 → pos + len ≤ 64 →
    rb ≠ .var tmp → ∀ p < 64,
    (byteSwap64 ((q.runAll (pseudoBfinsLe tmp rd ra rb pos len)).var rd)).getMsbD p =
      if pos ≤ p ∧ p < pos + len then (q.value rb).getLsbD (pos + len - 1 - p)
      else (byteSwap64 (q.value ra)).getMsbD p

/-- R47 (consequences the spec marks as derived), for every packing: where it puts payload byte k into byte j of the word,
NTHBYTE j gives payload byte k. With big-endian packing NTHBYTE k gives payload byte k and bit 0 is the most significant bit of
byte 0; with little-endian packing NTHBYTE 7-k gives it, and BFEXT with BE = 0 addresses the bits that BE = 1 addresses with
big-endian packing. -/
def Obligations.PayloadPackings : Prop :=
  (∀ (packing : Packing) (p : Payload) (b : Word) (j k : Nat) (hk : k < 8), j < 8 → byteOf (packing p) j = p[k] →
    payloadAnswer packing (.nthbyte j) p b = ⟨.ok, (p[k]).setWidth 64⟩) ∧
  (∀ (p : Payload) (b : Word) (k : Nat) (hk : k < 8),
    payloadAnswer packBigEndian (.nthbyte k) p b = ⟨.ok, (p[k]).setWidth 64⟩ ∧
    payloadAnswer packLittleEndian (.nthbyte (7 - k : Nat)) p b = ⟨.ok, (p[k]).setWidth 64⟩) ∧
  (∀ p : Payload, (packBigEndian p).getMsbD 0 = (p[0]).getMsbD 0) ∧
  (∀ (p : Payload) (a b : Word) (pos len : Nat), 1 ≤ len → len ≤ 64 → pos + len ≤ 64 →
    payloadAnswer packLittleEndian (.bfext false pos len) p a =
      payloadAnswer packBigEndian (.bfext true pos len) p b)

/-- R53, R117: two requesters update one buffer. Read, read, compute, compute, write, write loses the first update; one after
the other keeps both. R66, R118: a requester whose field is out of range, at any integers, one without an encoding included, leaves
the buffer as it is. -/
def Obligations.UnserializedUpdateCanBeLost : Prop :=
  (∀ (buf v₁ v₂ : Word) (p₁ n₁ p₂ n₂ : Nat), fieldOK p₁ n₁ = true → fieldOK p₂ n₂ = true →
    let start : Shared := ⟨buf, [⟨v₁, p₁, n₁, .start⟩, ⟨v₂, p₂, n₂, .start⟩]⟩
    (start.run [0, 1, 0, 1, 0, 1]).buffer = insertField p₂ n₂ buf v₂ ∧
    (start.run [0, 0, 0, 1, 1, 1]).buffer = insertField p₂ n₂ (insertField p₁ n₁ buf v₁) v₂) ∧
  (∀ (buf v : Word) (startPos numBits : Int),
    ¬(0 ≤ startPos ∧ 1 ≤ numBits ∧ numBits ≤ 64 ∧ startPos + numBits ≤ 64) →
    (Shared.run ⟨buf, [⟨v, startPos, numBits, .start⟩]⟩ [0, 0, 0]).buffer = buf)

/-- R55, R107: for every merge order, each requester is given exactly the responses of its own commands, in its own order,
whatever the others send. -/
def Obligations.ArbiterReturnsEachItsOwn : Prop :=
  ∀ (order : List Tagged) (who : Nat),
    routedTo who order (order.map fun t => answerOf t.request) = (issuedBy who order).map answerOf

/-- R73, R118: a line answered OK sets `st` to OK and its destination to RESULT, and leaves every other variable; so the four lines
of R73, on a field or byte in range, write to `rd` the bits that the operation's rule gives. -/
def Obligations.OkLinesWriteOnlyTheirDestination : Prop :=
  (∀ (q : Requester) (l : Line),
    let r := callAnswer l.call (q.value l.ra) (q.value l.rb)
    r.status = .ok →
      (q.run l).st = .ok ∧ (q.run l).var l.rd = r.result ∧ ∀ v, v ≠ l.rd → (q.run l).var v = q.var v) ∧
  (∀ (q : Requester) (rd : Nat) (ra rb : Source) (pos len : Nat), 1 ≤ len → len ≤ 64 → pos + len ≤ 64 →
    (∀ v, v ≠ rd → (q.run (lineBfextBe rd ra pos len)).var v = q.var v ∧
      (q.run (lineBfextLe rd ra pos len)).var v = q.var v ∧ (q.run (lineBfins rd ra rb pos len)).var v = q.var v) ∧
    (q.run (lineBfextBe rd ra pos len)).st = .ok ∧ (q.run (lineBfextLe rd ra pos len)).st = .ok ∧
    (q.run (lineBfins rd ra rb pos len)).st = .ok ∧
    (∀ i < 64,
      ((q.run (lineBfextBe rd ra pos len)).var rd).getLsbD i =
        (decide (i < len) && (q.value ra).getMsbD (pos + len - 1 - i)) ∧
      ((q.run (lineBfextLe rd ra pos len)).var rd).getLsbD i =
        (decide (i < len) && (byteSwap64 (q.value ra)).getMsbD (pos + len - 1 - i))) ∧
    (∀ p < 64, ((q.run (lineBfins rd ra rb pos len)).var rd).getMsbD p =
      if pos ≤ p ∧ p < pos + len then (q.value rb).getLsbD (pos + len - 1 - p) else (q.value ra).getMsbD p)) ∧
  (∀ (q : Requester) (rd : Nat) (ra : Source) (n : Nat), n ≤ 7 →
    (q.run (lineNthbyte rd ra n)).st = .ok ∧
    (q.run (lineNthbyte rd ra n)).var rd = ((q.value ra).extractLsb' (56 - 8 * n) 8).setWidth 64 ∧
    ∀ v, v ≠ rd → (q.run (lineNthbyte rd ra n)).var v = q.var v)
end

