-- ==== Sys2Proof/Laws/Encoding.lean ====
section
/-! SUPPORT. The bits of the encoder's word, and what the field readers read from it. -/

namespace Sys2Proof

theorem fitsField_iff {n : Nat} : fitsField n = true ↔ n ≤ 127 := by simp [fitsField]

/-- Each bit of a packed command word comes from one field (R59, R75). -/
theorem getLsbD_packCmd (op : Nat) (be : Bool) (pos len i : Nat) :
    (packCmd op be pos len).getLsbD i = (decide (i < 32) &&
      (op.testBit i || (decide (i = 4) && be) || (decide (8 ≤ i) && pos.testBit (i - 8))
        || (decide (16 ≤ i) && len.testBit (i - 16)))) := by
  have d8 : decide (8 ≤ i) = !decide (i < 8) := by simp only [← decide_not, Nat.not_lt]
  have d16 : decide (16 ≤ i) = !decide (i < 16) := by simp only [← decide_not, Nat.not_lt]
  by_cases hi : i < 32
  · simp only [packCmd, BitVec.getLsbD_or, BitVec.getLsbD_shiftLeft, BitVec.getLsbD_ofNat, BitVec.getLsbD_setWidth,
      BitVec.getLsbD_ofBool, hi, decide_true, Bool.true_and, d8, d16]
    by_cases e : i = 4
    · subst e; simp
    · have : i < 4 ∨ ¬ (i - 4 = 0) := by omega
      have h8 : i - 8 < 32 := by omega
      have h16 : i - 16 < 32 := by omega
      rcases this with h | h <;> simp [h, e, h8, h16]
  · simp [hi, BitVec.getLsbD_of_ge _ _ (Nat.le_of_not_lt hi)]

/-- A number below `2^m` has no bit at `m` or above. -/
theorem testBit_of_lt {n m k : Nat} (h : n < 2 ^ m) (hk : m ≤ k) : n.testBit k = false :=
  Nat.testBit_lt_two_pow (Nat.lt_of_lt_of_le h (Nat.pow_le_pow_right (by omega) hk))

/-- The bits of a slice read as a number. -/
theorem testBit_slice (cmd : Cmd) (lo w j : Nat) :
    (cmd.extractLsb' lo w).toNat.testBit j = (decide (j < w) && cmd.getLsbD (lo + j)) := by
  rw [← BitVec.getLsbD, BitVec.getLsbD_extractLsb']

section
variable {op pos len : Nat} (be : Bool) (ho : op < 2 ^ 4) (hp : pos < 2 ^ 7) (hl : len < 2 ^ 7)
include ho

theorem cmdOp_packCmd : cmdOp (packCmd op be pos len) = op := by
  refine Nat.eq_of_testBit_eq fun j => ?_
  rw [cmdOp, testBit_slice, getLsbD_packCmd]
  by_cases h : j < 4
  · have : j ≠ 4 ∧ ¬ 8 ≤ j ∧ ¬ 16 ≤ j := by omega
    simp [h, this, show j < 32 by omega]
  · simp [h, testBit_of_lt ho (Nat.le_of_not_lt h)]

include hp in
theorem cmdPos_packCmd : cmdPos (packCmd op be pos len) = pos := by
  refine Nat.eq_of_testBit_eq fun j => ?_
  rw [cmdPos, testBit_slice, getLsbD_packCmd]
  by_cases h : j < 7
  · have : 8 + j ≠ 4 ∧ ¬ 16 ≤ 8 + j := by omega
    simp [h, this, testBit_of_lt ho (show 4 ≤ 8 + j by omega), show 8 + j < 32 by omega]
  · simp [h, testBit_of_lt hp (Nat.le_of_not_lt h)]

include hp hl in
theorem cmdLen_packCmd : cmdLen (packCmd op be pos len) = len := by
  refine Nat.eq_of_testBit_eq fun j => ?_
  rw [cmdLen, testBit_slice, getLsbD_packCmd]
  by_cases h : j < 7
  · have : 16 + j ≠ 4 := by omega
    simp [h, this, testBit_of_lt ho (show 4 ≤ 16 + j by omega), testBit_of_lt hp (show 7 ≤ 16 + j - 8 by omega),
      show 16 + j < 32 by omega]
  · simp [h, testBit_of_lt hl (Nat.le_of_not_lt h)]

theorem cmdBe_packCmd : cmdBe (packCmd op be pos len) = be := by
  rw [cmdBe, getLsbD_packCmd]
  simp [testBit_of_lt ho (Nat.le_refl 4)]

include hp hl in
/-- The packed word has no bit outside OP, BE, POS and LEN: it passes BFEXT's reserved mask. -/
theorem packCmd_and_bfextMask : packCmd op be pos len &&& 0xFF8080E0#32 = 0#32 := by
  refine BitVec.eq_of_getLsbD_eq fun i hi => ?_
  rw [BitVec.getLsbD_and, getLsbD_packCmd]
  interval_cases i <;> simp [testBit_of_lt (m := 4) ho, testBit_of_lt (m := 7) hp, testBit_of_lt (m := 7) hl]

include hp hl in
/-- Without BE it passes BFINS's reserved mask. -/
theorem packCmd_and_bfinsMask : packCmd op false pos len &&& 0xFF8080F0#32 = 0#32 := by
  refine BitVec.eq_of_getLsbD_eq fun i hi => ?_
  rw [BitVec.getLsbD_and, getLsbD_packCmd]
  interval_cases i <;> simp [testBit_of_lt (m := 4) ho, testBit_of_lt (m := 7) hp, testBit_of_lt (m := 7) hl]

include hp in
/-- Without BE and LEN it passes NTHBYTE's reserved mask. -/
theorem packCmd_and_nthbyteMask : packCmd op false pos 0 &&& 0xFFFF80F0#32 = 0#32 := by
  refine BitVec.eq_of_getLsbD_eq fun i hi => ?_
  rw [BitVec.getLsbD_and, getLsbD_packCmd]
  interval_cases i <;> simp [testBit_of_lt (m := 4) ho, testBit_of_lt (m := 7) hp]

end

/-! ### The decoder -/

/-- Everything the decoder can answer: one of the three commands, where OP selects it and its reserved bits are 0, or an
error, where neither holds (R72, R78). -/
theorem decode_cases (cmd : Cmd) :
    (cmdOp cmd = 0 ∧ cmd &&& 0xFF8080E0#32 = 0#32 ∧ reservedOK cmd = true ∧
      decode cmd = .ok (.bfext (cmdBe cmd) (cmdPos cmd) (cmdLen cmd))) ∨
    (cmdOp cmd = 1 ∧ cmd &&& 0xFF8080F0#32 = 0#32 ∧ reservedOK cmd = true ∧
      decode cmd = .ok (.bfins (cmdPos cmd) (cmdLen cmd))) ∨
    (cmdOp cmd = 2 ∧ cmd &&& 0xFFFF80F0#32 = 0#32 ∧ reservedOK cmd = true ∧
      decode cmd = .ok (.nthbyte (cmdPos cmd))) ∨
    ((∃ e, decode cmd = .error e) ∧ reservedOK cmd = false ∧
      (cmdOp cmd = 0 → cmd &&& 0xFF8080E0#32 ≠ 0#32) ∧ (cmdOp cmd = 1 → cmd &&& 0xFF8080F0#32 ≠ 0#32) ∧
      (cmdOp cmd = 2 → cmd &&& 0xFFFF80F0#32 ≠ 0#32)) := by
  have key : cmdOp cmd = 0 ∨ cmdOp cmd = 1 ∨ cmdOp cmd = 2 ∨ 3 ≤ cmdOp cmd := by omega
  rcases key with h | h | h | h
  · by_cases hr : cmd &&& 0xFF8080E0#32 = 0#32 <;> simp [decode, reservedOK, reservedMask, h, hr]
  · by_cases hr : cmd &&& 0xFF8080F0#32 = 0#32 <;> simp [decode, reservedOK, reservedMask, h, hr]
  · by_cases hr : cmd &&& 0xFFFF80F0#32 = 0#32 <;> simp [decode, reservedOK, reservedMask, h, hr]
  · have h0 : reservedOK cmd = false := by
      unfold reservedOK reservedMask
      split <;> simp_all
      split at * <;> simp_all
    have : ¬ cmdOp cmd < 3 := by omega
    exact .inr (.inr (.inr ⟨⟨_, by simp only [decode, h0, this, if_false]; rfl⟩, h0, by omega, by omega, by omega⟩))

end Sys2Proof
end

