-- ==== Sys2Proof/Laws/Operands.lean ====
section
/-! SUPPORT. The bits of the datapath's primitives, and the range check as arithmetic. -/

namespace Sys2Proof.Machine

theorem fieldOK_iff {pos len : Nat} : fieldOK pos len = true ↔ 1 ≤ len ∧ len ≤ 64 ∧ pos + len ≤ 64 := by
  simp [fieldOK, and_assoc]

theorem byteOK_iff {n : Nat} : byteOK n = true ↔ n ≤ 7 := by simp [byteOK]

/-- Bit `j` of byte `k` (R11). -/
theorem getLsbD_byteOf (w : Word) (k j : Nat) :
    (byteOf w k).getLsbD j = (decide (j < 8) && w.getLsbD (56 - 8 * k + j)) := by
  simp [byteOf, BitVec.getLsbD_extractLsb']

/-- Where a bit of the swapped word comes from: the byte counted from the other end, the same bit in it (R82). -/
theorem getLsbD_byteSwap64 (w : Word) {i : Nat} (hi : i < 64) :
    (byteSwap64 w).getLsbD i = w.getLsbD (56 - 8 * (i / 8) + i % 8) := by
  unfold byteSwap64
  simp only [BitVec.getLsbD_append, getLsbD_byteOf]
  interval_cases i <;> simp

/-- The bits of `Mask(len)` (R81). -/
theorem getLsbD_mask (len i : Nat) : (mask len).getLsbD i = (decide (i < 64) && decide (i < len)) := by
  simp [mask, BitVec.getLsbD_ofNat, Nat.testBit_two_pow_sub_one]

end Sys2Proof.Machine
end

