-- ==== Sys2Proof/Laws/State.lean ====
section
/-! SUPPORT. One lemma per field of State per update of State: what the update leaves there. -/

namespace Sys2Proof.Machine

variable (s : State)

@[simp] theorem State.answer_queue (r : Response) : (s.answer r).queue = s.queue ++ [{ response := r, acceptedAt := s.cycle }] := rfl
@[simp] theorem State.answer_pins (r : Response) : (s.answer r).pins = s.pins := rfl
@[simp] theorem State.answer_script (r : Response) : (s.answer r).script = s.script := rfl
@[simp] theorem State.answer_delivered (r : Response) : (s.answer r).delivered = s.delivered := rfl
@[simp] theorem State.answer_pending (r : Response) : (s.answer r).pending = s.pending := rfl
@[simp] theorem State.answer_resetSeen (r : Response) : (s.answer r).resetSeen = s.resetSeen := rfl
@[simp] theorem State.answer_cycle (r : Response) : (s.answer r).cycle = s.cycle := rfl

@[simp] theorem State.nextCycle_queue (b : Bool) : (s.nextCycle b).queue = s.queue := rfl
@[simp] theorem State.nextCycle_pins (b : Bool) : (s.nextCycle b).pins = s.nextPins b := rfl
@[simp] theorem State.nextCycle_script (b : Bool) : (s.nextCycle b).script = s.script.tail := rfl
@[simp] theorem State.nextCycle_delivered (b : Bool) : (s.nextCycle b).delivered = s.delivered := rfl
@[simp] theorem State.nextCycle_pending (b : Bool) : (s.nextCycle b).pending = s.heldRequest b := rfl
@[simp] theorem State.nextCycle_resetSeen (b : Bool) : (s.nextCycle b).resetSeen = s.resetSeen := rfl
@[simp] theorem State.nextCycle_cycle (b : Bool) : (s.nextCycle b).cycle = s.cycle + 1 := rfl

@[simp] theorem State.resetEdge_queue : (s.resetEdge).queue = [] := rfl
@[simp] theorem State.resetEdge_pins : (s.resetEdge).pins = s.nextPins false := rfl
@[simp] theorem State.resetEdge_script : (s.resetEdge).script = s.script.tail := rfl
@[simp] theorem State.resetEdge_delivered : (s.resetEdge).delivered = s.delivered := rfl
@[simp] theorem State.resetEdge_pending : (s.resetEdge).pending = s.heldRequest false := rfl
@[simp] theorem State.resetEdge_resetSeen : (s.resetEdge).resetSeen = true := rfl
@[simp] theorem State.resetEdge_cycle : (s.resetEdge).cycle = s.cycle + 1 := rfl

@[simp] theorem State.present_queue (cmd : Cmd) : (s.present cmd).queue = keepOldest s.queue Config.extraInflight := rfl
@[simp] theorem State.present_pins (cmd : Cmd) : (s.present cmd).pins = { s.pins with rst := false, reqValid := true, reqCmd := cmd } := rfl
@[simp] theorem State.present_script (cmd : Cmd) : (s.present cmd).script = s.script := rfl
@[simp] theorem State.present_delivered (cmd : Cmd) : (s.present cmd).delivered = s.delivered := rfl
@[simp] theorem State.present_pending (cmd : Cmd) : (s.present cmd).pending = none := rfl
@[simp] theorem State.present_resetSeen (cmd : Cmd) : (s.present cmd).resetSeen = true := rfl
@[simp] theorem State.present_cycle (cmd : Cmd) : (s.present cmd).cycle = s.cycle := rfl

@[simp] theorem respond_status (st : Status) (w : Word) : (respond st w).status = st := rfl
@[simp] theorem respond_result (st : Status) (w : Word) : (respond st w).result = w := rfl
@[simp] theorem raise_status (st : Status) : (raise st).status = st := rfl
@[simp] theorem raise_result (st : Status) : (raise st).result = 0 := rfl

end Sys2Proof.Machine
end

