-- ==== Sys2Proof/Laws/Ops.lean ====
section
/-! SUPPORT. For each shared operation, once, everything it can do: provers cite these instead of unfolding it. -/

namespace Sys2Proof.Machine

/-! ### The queue's bounds -/

theorem hasRoom_eq_decide {α : Type} (q : List α) (n : Nat) : hasRoom q n = decide (q.length < n) := by
  induction q generalizing n with
  | nil => cases n <;> simp [hasRoom]
  | cons e q ih => cases n <;> simp [hasRoom, ih]

theorem hasRoom_iff {α : Type} {q : List α} {n : Nat} : hasRoom q n = true ↔ q.length < n := by
  simp [hasRoom_eq_decide]

theorem keepOldest_eq_take {α : Type} (q : List α) (n : Nat) : keepOldest q n = q.take n := by
  induction q generalizing n with
  | nil => simp [keepOldest]
  | cons e q ih => cases n <;> simp [keepOldest, ih]

theorem one_le_maxInflight : 1 ≤ Config.maxInflight := Nat.le_add_left _ _

theorem one_le_rspLatency : 1 ≤ Config.rspLatency := Nat.le_add_left _ _

/-! ### Readiness -/

/-- A command's response is ready at least one and at most `RSP_LATENCY` cycles after the one that accepted it. -/
theorem latencyAt_bounds (k : Nat) : 1 ≤ latencyAt k ∧ latencyAt k ≤ Config.rspLatency := by
  unfold latencyAt Config.rspLatency; omega

theorem readyAt_iff (e : Entry) (now : Nat) :
    e.readyAt now = true ↔ latencyAt e.acceptedAt ≤ now - e.acceptedAt := by
  simp [Entry.readyAt]

/-- Once ready, ready from then on. -/
theorem readyAt_mono {e : Entry} {now later : Nat} (h : e.readyAt now = true) (hl : now ≤ later) :
    e.readyAt later = true := by
  rw [readyAt_iff] at *; omega

theorem not_readyAt_of_le {e : Entry} {now : Nat} (h : now ≤ e.acceptedAt) : e.readyAt now = false := by
  have := latencyAt_bounds e.acceptedAt
  rw [Bool.eq_false_iff, ne_eq, readyAt_iff]; omega

theorem readyAt_of_latency {e : Entry} {now : Nat} (h : e.acceptedAt + Config.rspLatency ≤ now) :
    e.readyAt now = true := by
  have := latencyAt_bounds e.acceptedAt
  rw [readyAt_iff]; omega

/-! ### The handshake -/

/-- In a BFU that has been reset: `req_ready` is 1 exactly without reset and with a place free. -/
theorem reqReady_iff {s : State} (hr : s.resetSeen = true) :
    s.reqReady = true ↔ s.pins.rst = false ∧ s.queue.length < Config.maxInflight := by
  cases h : s.pins.rst <;> simp [State.reqReady, h, hr, hasRoom_iff]

/-- In a BFU that has been reset: `rsp_valid` is 1 exactly without reset and with the oldest response ready. -/
theorem rspValid_iff {s : State} (hr : s.resetSeen = true) :
    s.rspValid = true ↔ s.pins.rst = false ∧ ∃ e q, s.queue = e :: q ∧ e.readyAt s.cycle = true := by
  cases h : s.pins.rst <;> cases hq : s.queue <;> simp [State.rspValid, State.headReady, h, hr, hq]

theorem accepting_iff {s : State} (hr : s.resetSeen = true) :
    s.accepting = true ↔
      s.pins.rst = false ∧ s.pins.reqValid = true ∧ s.queue.length < Config.maxInflight := by
  have := reqReady_iff hr
  cases h : s.pins.rst <;> simp_all [State.accepting]

theorem delivering_iff {s : State} (hr : s.resetSeen = true) :
    s.delivering = true ↔ s.pins.rst = false ∧ s.pins.rspReady = true ∧
      ∃ e q, s.queue = e :: q ∧ e.readyAt s.cycle = true := by
  have := rspValid_iff hr
  cases h : s.pins.rst <;> cases h' : s.pins.rspReady <;> simp_all [State.delivering]

/-- Everything `afterDelivery` can do: hand over the oldest response, or nothing. -/
theorem afterDelivery_cases {s : State} (hr : s.resetSeen = true) :
    (s.delivering = true ∧ ∃ e q, s.queue = e :: q ∧ e.readyAt s.cycle = true ∧
      s.afterDelivery = { s with queue := q, delivered := s.delivered ++ [e.response] }) ∨
    (s.delivering = false ∧ s.afterDelivery = s) := by
  cases hd : s.delivering with
  | true =>
    obtain ⟨-, -, e, q, hq, he⟩ := (delivering_iff hr).1 hd
    exact .inl ⟨rfl, e, q, hq, he, by simp [State.afterDelivery, hq, hd]⟩
  | false => exact .inr ⟨rfl, by unfold State.afterDelivery; split <;> simp [hd]⟩

section
variable (s : State)

theorem afterDelivery_eq : s.afterDelivery = s ∨
    ∃ e q, s.queue = e :: q ∧ s.afterDelivery = { s with queue := q, delivered := s.delivered ++ [e.response] } := by
  unfold State.afterDelivery
  split
  · split
    · exact .inr ⟨_, _, ‹_›, rfl⟩
    · exact .inl rfl
  · exact .inl rfl

@[simp] theorem afterDelivery_pins : s.afterDelivery.pins = s.pins := by
  obtain h | ⟨_, _, _, h⟩ := afterDelivery_eq s <;> simp [h]
@[simp] theorem afterDelivery_script : s.afterDelivery.script = s.script := by
  obtain h | ⟨_, _, _, h⟩ := afterDelivery_eq s <;> simp [h]
@[simp] theorem afterDelivery_pending : s.afterDelivery.pending = s.pending := by
  obtain h | ⟨_, _, _, h⟩ := afterDelivery_eq s <;> simp [h]
@[simp] theorem afterDelivery_resetSeen : s.afterDelivery.resetSeen = s.resetSeen := by
  obtain h | ⟨_, _, _, h⟩ := afterDelivery_eq s <;> simp [h]
@[simp] theorem afterDelivery_cycle : s.afterDelivery.cycle = s.cycle := by
  obtain h | ⟨_, _, _, h⟩ := afterDelivery_eq s <;> simp [h]

end

/-! ### The step -/

/-- Every command's meaning is one `answer`. -/
theorem exec_answers (i : Instr) (s : State) : ∃ r, exec i s = .next (s.answer r) := by
  cases i <;> exact ⟨_, rfl⟩

/-- Accepting the command on the request port answers it by `Execute` and never stops. -/
theorem runOffered_eq (s : State) :
    runOffered s = .next (s.answer (execute s.pins.reqCmd s.pins.reqA s.pins.reqB)) := by
  unfold runOffered execute
  cases decode s.pins.reqCmd with
  | error e => rfl
  | ok i => cases i <;> rfl

/-- A requester that keeps its duty: nothing is pending, or the pending request is still on the port. -/
theorem requestStable_iff {s : State} :
    s.requestStable = true ↔ ∀ r, s.pending = some r → s.pins.reqValid = true ∧ s.pins.request = r := by
  unfold State.requestStable
  cases s.pending <;> simp

/-- The edge of a BFU that has been reset, without reset, whose requester keeps its duty: everything it does. -/
theorem step_live {s : State} (h0 : s.pins.rst = false) (hr : s.resetSeen = true) (hs : s.requestStable = true) :
    step s = .next (if s.accepting then
        (s.afterDelivery.answer (execute s.pins.reqCmd s.pins.reqA s.pins.reqB)).nextCycle true
      else s.afterDelivery.nextCycle false) := by
  unfold step
  cases ha : s.accepting <;> simp [h0, hr, hs, runOffered_eq, endAccepted]

theorem step_reset {s : State} (h : s.pins.rst = true) : step s = .next s.resetEdge := by simp [step, h]

/-- Everything a step that answers a next state can have done. -/
theorem step_cases {s t : State} (h : step s = .next t) :
    (s.pins.rst = true ∧ t = s.resetEdge) ∨
    (s.pins.rst = false ∧ s.resetSeen = true ∧ s.requestStable = true ∧
      ((s.accepting = true ∧
          t = (s.afterDelivery.answer (execute s.pins.reqCmd s.pins.reqA s.pins.reqB)).nextCycle true) ∨
        (s.accepting = false ∧ t = s.afterDelivery.nextCycle false))) := by
  cases h0 : s.pins.rst with
  | true => rw [step_reset h0] at h; cases h; exact .inl ⟨rfl, rfl⟩
  | false =>
    cases hr : s.resetSeen with
    | false => simp [step, h0, hr] at h
    | true =>
      cases hs : s.requestStable with
      | false => simp [step, h0, hr, hs] at h
      | true =>
        rw [step_live h0 hr hs] at h
        cases ha : s.accepting <;> simp [ha] at h <;> simp [h]

end Sys2Proof.Machine
end

