-- ==== Sys2Proof/Laws/PerInstr.lean ====
section
/-! SUPPORT. Families of statements made for every command, one lemma per constructor of Instr. -/

/-- The encoder's word of a well-formed command passes the reserved-bit check and carries the command's own OP value
(R60, R64). -/
def Sys2Proof.Laws.EncodingAccepted.Statement (i : Sys2Proof.Instr) : Prop :=
  i.WellFormed → Sys2Proof.reservedOK (Sys2Proof.encode i) = true ∧
    Sys2Proof.cmdOp (Sys2Proof.encode i) = match i with
      | .bfext _ _ _ => 0
      | .bfins _ _ => 1
      | .nthbyte _ => 2

namespace Sys2Proof.Laws.EncodingAccepted

theorem bfext (bigEndian : Bool) (startPos numBits : Nat) : Statement (.bfext bigEndian startPos numBits) := by
  intro h
  simp only [Instr.WellFormed, Instr.wellFormed, Bool.and_eq_true, fitsField_iff] at h
  have hp : startPos < 2 ^ 7 := by omega
  have hl : numBits < 2 ^ 7 := by omega
  have ho : cmdOp (encode (.bfext bigEndian startPos numBits)) = 0 := cmdOp_packCmd bigEndian (by decide)
  refine ⟨?_, ho⟩
  simp only [reservedOK, ho, reservedMask, beq_iff_eq]
  exact packCmd_and_bfextMask bigEndian (by decide) hp hl

theorem bfins (startPos numBits : Nat) : Statement (.bfins startPos numBits) := by
  intro h
  simp only [Instr.WellFormed, Instr.wellFormed, Bool.and_eq_true, fitsField_iff] at h
  have hp : startPos < 2 ^ 7 := by omega
  have hl : numBits < 2 ^ 7 := by omega
  have ho : cmdOp (encode (.bfins startPos numBits)) = 1 := cmdOp_packCmd false (by decide)
  refine ⟨?_, ho⟩
  simp only [reservedOK, ho, reservedMask, beq_iff_eq]
  exact packCmd_and_bfinsMask (by decide) hp hl

theorem nthbyte (byteNum : Nat) : Statement (.nthbyte byteNum) := by
  intro h
  simp only [Instr.WellFormed, Instr.wellFormed, fitsField_iff] at h
  have hp : byteNum < 2 ^ 7 := by omega
  have ho : cmdOp (encode (.nthbyte byteNum)) = 2 := cmdOp_packCmd false (by decide)
  refine ⟨?_, ho⟩
  simp only [reservedOK, ho, reservedMask, beq_iff_eq]
  exact packCmd_and_nthbyteMask (by decide) hp

end Sys2Proof.Laws.EncodingAccepted
end

