-- ==== Sys2Proof/Laws/Requester.lean ====
section
/-! SUPPORT. The requester side, once each: which integers have a field value, and what taking a response writes. -/

namespace Sys2Proof.Machine

theorem fieldValue_eq_some {n : Int} {k : Nat} : fieldValue n = some k ↔ n = k ∧ k ≤ 127 := by
  unfold fieldValue; split <;> simp <;> omega

theorem fieldValue_eq_none {n : Int} : fieldValue n = none ↔ n < 0 ∨ 127 < n := by
  unfold fieldValue; split <;> simp <;> omega

/-- Reading a variable after one was written. -/
theorem var_write (vs : List (Nat × Word)) (st : Status) (rd v : Nat) (w : Word) :
    (Requester.mk ((rd, w) :: vs) st).var v = if v = rd then w else (Requester.mk vs st).var v := by
  unfold Requester.var
  by_cases h : v = rd
  · simp [h, List.lookup]
  · have : (v == rd) = false := by simpa using h
    simp [h, List.lookup, this]

/-- Everything taking a response can do: write the destination and OK, or record the error and write nothing (R73, R118). -/
theorem take_cases (q : Requester) (rd : Nat) (r : Response) :
    (r.status = .ok ∧ q.take rd r = { vars := (rd, r.result) :: q.vars, st := .ok }) ∨
    (r.status ≠ .ok ∧ q.take rd r = { q with st := r.status }) := by
  unfold Requester.take
  cases r.status <;> simp

/-- Everything a writer's move can do to the buffer: leave it, or write back an OK answer it holds (R53, R118). -/
theorem writer_move_buffer (w : Writer) (buffer : Word) :
    (w.move buffer).2 = buffer ∨
    ∃ r, w.phase = .answered r ∧ r.status = .ok ∧ (w.move buffer).2 = r.result := by
  unfold Writer.move
  split
  · exact .inl rfl
  · exact .inl rfl
  · rename_i r h
    by_cases hr : r.status = .ok
    · exact .inr ⟨r, h, hr, by simp [hr]⟩
    · exact .inl (by simp [hr])
  · exact .inl rfl

end Sys2Proof.Machine
end

