-- ==== Sys2Proof/Laws/Runs.lean ====
section
/-! SUPPORT. Runs of the machine: how they split, that they have one end, and that a quiet BFU runs on. -/

namespace Sys2Proof.Machine

theorem runsTo_zero {s t : State} : RunsTo 0 s t ↔ s = t := by
  constructor
  · intro h; cases (h : Host.Outcome.next s = .next t); rfl
  · rintro rfl; rfl

theorem runsTo_succ {n : Nat} {s t : State} : RunsTo (n + 1) s t ↔ ∃ u, step s = .next u ∧ RunsTo n u t := by
  unfold RunsTo
  simp only [Host.Core.run, Sys2Proof.core]
  cases h : step s <;> simp

theorem runsTo_add {m n : Nat} {s t : State} : RunsTo (m + n) s t ↔ ∃ u, RunsTo m s u ∧ RunsTo n u t := by
  induction m generalizing s with
  | zero => simp [runsTo_zero]
  | succ m ih =>
    rw [show m + 1 + n = (m + n) + 1 by omega]
    simp only [runsTo_succ, ih]
    constructor
    · rintro ⟨u, hu, v, h1, h2⟩; exact ⟨v, ⟨u, hu, h1⟩, h2⟩
    · rintro ⟨v, ⟨u, hu, h1⟩, h2⟩; exact ⟨u, hu, v, h1, h2⟩

/-- A run has one end. -/
theorem runsTo_unique {n : Nat} {s t t' : State} (h : RunsTo n s t) (h' : RunsTo n s t') : t = t' := by
  have e : Host.Outcome.next t = Host.Outcome.next (φ := Fault) (ρ := Refusal) t' := h.symm.trans h'
  cases e; rfl

/-- Nothing is offered, nothing is scripted, and the BFU has been reset. -/
structure State.Quiet (s : State) : Prop where
  noReset : s.pins.rst = false
  noOffer : s.pins.reqValid = false
  noScript : s.script = []
  noPending : s.pending = none
  resetSeen : s.resetSeen = true

/-- A quiet BFU stays quiet, with the same input ports. -/
theorem quiet_step {s : State} (h : s.Quiet) : ∃ t, step s = .next t ∧ t.Quiet ∧ t.pins = s.pins := by
  obtain ⟨h0, hv, hsc, hp, hr⟩ := h
  have hst : s.requestStable = true := by simp [State.requestStable, hp]
  have ha : s.accepting = false := by simp [State.accepting, hv]
  have hpins : s.pins = { s.pins with rst := false, reqValid := false } := by
    cases h : s.pins; simp_all
  refine ⟨_, step_live h0 hr hst, ?_⟩
  simp only [ha, Bool.false_eq_true, if_false, State.nextCycle_pins, State.nextPins, afterDelivery_script, hsc,
    afterDelivery_pins, hv, Bool.false_and]
  exact ⟨⟨by simp [State.nextPins, hsc], by simp [State.nextPins, hsc, hv], by simp [hsc],
    by simp [State.heldRequest, hv], by simpa using hr⟩, hpins.symm⟩

theorem quiet_runs {s : State} (h : s.Quiet) (n : Nat) : ∃ t, RunsTo n s t ∧ t.Quiet ∧ t.pins = s.pins := by
  induction n generalizing s with
  | zero => exact ⟨s, runsTo_zero.2 rfl, h, rfl⟩
  | succ n ih =>
    obtain ⟨u, hu, hq, hp⟩ := quiet_step h
    obtain ⟨t, ht, hq', hp'⟩ := ih hq
    exact ⟨t, runsTo_succ.2 ⟨u, hu, ht⟩, hq', hp'.trans hp⟩

theorem quiet_noReset {s : State} (h : s.Quiet) (n : Nat) : NoResetDuring n s := by
  intro k _ t ht
  obtain ⟨u, hu, hq, _⟩ := quiet_runs h k
  exact runsTo_unique ht hu ▸ hq.noReset

theorem quiet_takes {s : State} (h : s.Quiet) (hy : s.pins.rspReady = true) (n : Nat) : TakesWithin 1 n s := by
  intro k _
  refine ⟨k, Nat.le_refl _, Nat.lt_succ_self _, fun t ht => ?_⟩
  obtain ⟨u, hu, _, hp⟩ := quiet_runs h k
  rw [runsTo_unique ht hu, hp, hy]

end Sys2Proof.Machine
end

