-- ==== Sys2Proof/Tests/Slice0.lean ====
section
/-! SUPPORT. Tests on fixed values, their expected results from the spec's own examples (95_test_vectors.md), the
WellFormed smoke tests, and for each obligation with hypotheses a witness that meets them. -/

namespace Sys2Proof.Tests

open Sys2Proof.Machine

/-! ### WellFormed refuses each ill-formed term (R66) -/

theorem test_wellFormed_bounds :
    (Instr.bfext true 127 127).wellFormed = true ∧ (Instr.bfext true 128 1).wellFormed = false ∧
    (Instr.bfext false 0 128).wellFormed = false ∧ (Instr.bfins 127 127).wellFormed = true ∧
    (Instr.bfins 128 1).wellFormed = false ∧ (Instr.bfins 0 128).wellFormed = false ∧
    (Instr.nthbyte 127).wellFormed = true ∧ (Instr.nthbyte 128).wellFormed = false := by decide

/-! ### Words written out field by field from R59: reserved 9, LEN 7, reserved 1, POS 7, reserved 3, BE 1, OP 4 -/

theorem test_decode_bfext_be :
    decode (0b000000000#9 ++ 0b0000110#7 ++ 0b0#1 ++ 0b0001110#7 ++ 0b000#3 ++ 0b1#1 ++ 0b0000#4)
      = .ok (.bfext true 14 6) := by decide

theorem test_decode_bfext_le :
    decode (0b000000000#9 ++ 0b1000000#7 ++ 0b0#1 ++ 0b0000000#7 ++ 0b000#3 ++ 0b0#1 ++ 0b0000#4)
      = .ok (.bfext false 0 64) := by decide

theorem test_decode_bfins :
    decode (0b000000000#9 ++ 0b0000110#7 ++ 0b0#1 ++ 0b0001110#7 ++ 0b000#3 ++ 0b0#1 ++ 0b0001#4)
      = .ok (.bfins 14 6) := by decide

theorem test_decode_nthbyte :
    decode (0b000000000#9 ++ 0b0000000#7 ++ 0b0#1 ++ 0b0000111#7 ++ 0b000#3 ++ 0b0#1 ++ 0b0010#4)
      = .ok (.nthbyte 7) := by decide

/-- Reserved encodings of 95_test_vectors.md sections 3.1 to 3.4. -/
theorem test_decode_reserved :
    decode 0x00080030#32 = .error (.reservedBit 0) ∧ decode 0x80000010#32 = .error (.reservedBit 0) ∧
    decode 0x00080011#32 = .error (.reservedBit 1) ∧ decode 0x00080002#32 = .error (.reservedBit 2) ∧
    decode 0x00000012#32 = .error (.reservedBit 2) ∧ decode 0x00000003#32 = .error (.reservedOp 3) ∧
    decode 0xFFFFFFFF#32 = .error (.reservedOp 15) := by decide

/-! ### One step per command (95_test_vectors.md) -/

/-- A BFU after reset, whose requester offers a command and takes responses. -/
def offered (cmd : Cmd) (a b : Word) : State :=
  { State.reset with
    pins := { rst := false, reqValid := true, reqCmd := cmd, reqA := a, reqB := b, rspReady := true } }

/-- The responses in flight after one edge. -/
def afterEdge (s : State) : List Response :=
  match step s with
  | .next t => t.responses
  | .fault _ => []
  | .refused _ => []

/-- Section 1.1, the source's literal example 1. -/
theorem test_bfext_be_example : afterEdge (offered 0x00060E10 0x0002A00000000000 0) = [⟨.ok, 0x2A⟩] := by decide

/-- Section 3.1: a field that straddles two bytes of the swapped word. -/
theorem test_bfext_le_straddles : afterEdge (offered 0x00080400 0xFEDCBA9876543210 0) = [⟨.ok, 3⟩] := by decide

/-- Section 3.2: a field that straddles two bytes. -/
theorem test_bfins_straddles :
    afterEdge (offered 0x00080401 0xFFFFFFFFFFFFFFFF 0x5A) = [⟨.ok, 0xF5AFFFFFFFFFFFFF⟩] := by decide

/-- Section 3.2: the value's high bits are discarded. -/
theorem test_bfins_truncates :
    afterEdge (offered 0x00100801 0xFEDCBA9876543210 0xFFFFFFFFFFFF1234) = [⟨.ok, 0xFE12349876543210⟩] := by decide

/-- Section 3.3. -/
theorem test_nthbyte_three : afterEdge (offered 0x00000302 0xFEDCBA9876543210 0) = [⟨.ok, 0x98⟩] := by decide

/-- Section 3.3: byte 8 is RANGE, not a wrapped index. -/
theorem test_nthbyte_eight : afterEdge (offered 0x00000802 0x0102030405060708 0) = [⟨.range, 0⟩] := by decide

/-- Section 3.1, last row: a reserved bit and a length of 0 together are ILLEGAL (R85). -/
theorem test_illegal_before_range : afterEdge (offered 0x80000010 0xFEDCBA9876543210 0) = [⟨.illegal, 0⟩] := by decide

/-- Section 2.1. -/
theorem test_byteSwap64_rows :
    byteSwap64 0x0102030405060708 = 0x0807060504030201 ∧ byteSwap64 0xFEDCBA9876543210 = 0x1032547698BADCFE ∧
    byteSwap64 0xFF = 0xFF00000000000000 ∧ byteSwap64 0x8000000000000001 = 0x0100000000000080 := by decide

/-- Section 2.2. -/
theorem test_mask_rows :
    mask 1 = 1 ∧ mask 6 = 0x3F ∧ mask 9 = 0x1FF ∧ mask 63 = 0x7FFFFFFFFFFFFFFF ∧ mask 64 = 0xFFFFFFFFFFFFFFFF := by decide

/-- Section 2.3. -/
theorem test_fieldOK_rows :
    fieldOK 0 1 = true ∧ fieldOK 0 64 = true ∧ fieldOK 63 1 = true ∧ fieldOK 0 0 = false ∧ fieldOK 0 65 = false ∧
    fieldOK 1 64 = false ∧ fieldOK 63 2 = false ∧ fieldOK 64 0 = false ∧ fieldOK 127 127 = false ∧
    fieldShift 0 1 = 63 ∧ fieldShift 63 1 = 0 := by decide

/-- Section 4.5, steps 3 and 5: with depth 2 a full queue accepts nothing, a delivery takes the oldest, a reset drops
all. -/
theorem test_transaction_trace :
    (Action.accept ⟨0x00083801, 0, 0xAA⟩).apply 2 [⟨.ok, 1⟩, ⟨.ok, 8⟩] = none ∧
    Action.deliver.apply 2 [⟨.ok, 1⟩, ⟨.ok, 8⟩] = some ([⟨.ok, 8⟩], [⟨.ok, 1⟩]) ∧
    (Action.accept ⟨0x00083801, 0, 0xAA⟩).apply 2 [⟨.ok, 8⟩] = some ([⟨.ok, 8⟩, ⟨.ok, 0xAA⟩], []) ∧
    Action.reset.apply 2 [⟨.ok, 8⟩, ⟨.ok, 0xAA⟩] = some ([], []) := by decide

/-- A word of the opcode table, presented to the BFU after reset, runs (R75: NTHBYTE 7). -/
theorem test_withFetchWord_runs :
    afterEdge ({ State.reset with pins := { Inputs.idle with reqA := 0x0102030405060708 } }.withFetchWord 32 0x702)
      = [⟨.ok, 8⟩] := by decide

/-! ### Witnesses: concrete states and operands that meet each obligation's hypotheses -/

theorem witness_DecodeOfEncodeIsIdentity :
    (Instr.bfext true 127 0).WellFormed ∧ (Instr.bfins 0 127).WellFormed ∧ (Instr.nthbyte 127).WellFormed := by decide

theorem witness_EncodeOfDecodeIsIdentity : decode 0x007F7F10#32 = .ok (.bfext true 127 127) := by decide

theorem witness_EncodingFunctionAndExamples : (127 : Nat) ≤ 127 ∧ (0 : Nat) ≤ 127 := by decide

/-- One row selects a word and each word is selected by one row. -/
theorem witness_DecoderSelectsByMaskAndMatch :
    (∃ r ∈ opcodeRows, r.selects 0x007F7F10#32 = true) ∧ (∃ r ∈ opcodeRows, r.selects 0x00060E01#32 = true) ∧
    (∃ r ∈ opcodeRows, r.selects 0x00000702#32 = true) ∧ (∀ r ∈ opcodeRows, r.selects 0x00000003#32 = false) := by decide

theorem offered_queue_short (cmd : Cmd) (a b : Word) : (offered cmd a b).queue.length < Config.maxInflight :=
  one_le_maxInflight

theorem offered_accepting (cmd : Cmd) (a b : Word) : (offered cmd a b).accepting = true :=
  (accepting_iff rfl).2 ⟨rfl, rfl, one_le_maxInflight⟩

theorem witness_IllegalWordIsAnsweredInOrder :
    let s := offered 0x00000003 1 2
    s.pins.rst = false ∧ s.resetSeen = true ∧ s.requestStable = true ∧ s.pins.reqValid = true ∧
      s.queue.length < Config.maxInflight ∧ ∀ row ∈ opcodeRows, row.selects s.pins.reqCmd = false :=
  ⟨rfl, rfl, rfl, rfl, one_le_maxInflight, by decide⟩

/-- ByteSwapReversesBytes, ByteSwapIsInvolutive and PayloadPackings, on a byte or bit number. -/
theorem witness_ByteSwapReversesBytes : (0 : Nat) < 8 ∧ (7 : Nat) < 8 := by decide

theorem witness_MaskIsThermometer : ((1 : Nat) ≤ 1 ∧ 1 ≤ 64) ∧ ((1 : Nat) ≤ 64 ∧ 64 ≤ 64) := by decide

theorem witness_FieldGeometry : fieldOK 0 64 = true ∧ fieldOK 63 1 = true := by decide

/-- The hypotheses of BfextCompletesWithField, BfinsCompletesWithUpdatedWord, BfextLaws, BfinsLaws,
SwapClearAndSetPseudoInstructions and PayloadPackings and OkLinesWriteOnlyTheirDestination on a field, at the range's ends. -/
theorem witness_fieldInRange :
    ((1 : Nat) ≤ 64 ∧ 64 ≤ 64 ∧ 0 + 64 ≤ 64) ∧ ((1 : Nat) ≤ 1 ∧ 1 ≤ 64 ∧ 63 + 1 ≤ 64) := by decide

/-- BfinsLaws, round trip: the largest value that fits a field of 6 bits. -/
theorem witness_BfinsLaws_value : (0x3F : Word).toNat < 2 ^ 6 := by decide

/-- NthbyteCompletesWithByte, NthbyteIsByteAlignedExtract and OkLinesWriteOnlyTheirDestination on a byte. -/
theorem witness_byteInRange : (0 : Nat) ≤ 7 ∧ (7 : Nat) ≤ 7 := by decide

theorem witness_OutOfRangeIsAnsweredRange :
    (0 : Nat) = 0 ∧ 64 < 65 ∧ 64 < 64 + 1 ∧ 64 < 63 + 2 ∧ 7 < 8 := by decide

/-- Each clause of ExecuteFollowsItsPseudocode has a word: OP 0, 1 and 2 with a reserved bit, out of range, in range;
OP 3 and 15. -/
theorem witness_ExecuteFollowsItsPseudocode :
    (cmdOp 0x80000010#32 = 0 ∧ 0x80000010#32 &&& 0xFF8080E0#32 ≠ 0#32) ∧
    (cmdOp 0x00053C10#32 = 0 ∧ 0x00053C10#32 &&& 0xFF8080E0#32 = 0#32 ∧ ¬ 60 + 5 ≤ 64) ∧
    (cmdOp 0x00400010#32 = 0 ∧ cmdPos 0x00400010#32 = 0 ∧ cmdLen 0x00400010#32 = 64) ∧
    (cmdOp 0x00080011#32 = 1 ∧ 0x00080011#32 &&& 0xFF8080F0#32 ≠ 0#32) ∧
    (cmdOp 0x00000001#32 = 1 ∧ 0x00000001#32 &&& 0xFF8080F0#32 = 0#32 ∧ cmdLen 0x00000001#32 = 0) ∧
    (cmdOp 0x00013F01#32 = 1 ∧ cmdPos 0x00013F01#32 = 63 ∧ cmdLen 0x00013F01#32 = 1) ∧
    (cmdOp 0x00000012#32 = 2 ∧ 0x00000012#32 &&& 0xFFFF80F0#32 ≠ 0#32) ∧
    (cmdOp 0x00000802#32 = 2 ∧ 0x00000802#32 &&& 0xFFFF80F0#32 = 0#32 ∧ cmdPos 0x00000802#32 = 8) ∧
    (cmdOp 0x00000702#32 = 2 ∧ 0x00000702#32 &&& 0xFFFF80F0#32 = 0#32 ∧ cmdPos 0x00000702#32 = 7) ∧
    3 ≤ cmdOp 0x00000003#32 ∧ 3 ≤ cmdOp 0xFFFFFFFF#32 := by decide

theorem witness_ResponsesIgnoreUnusedOperands :
    cmdOp 0x00000702#32 ≠ 1 ∧ (execute 0x00000802 5 6).status ≠ .ok ∧ (execute 0x00000003 5 6).status = .illegal := by decide

/-- A response, accepted in cycle 0, that is ready and not taken. -/
def presenting (rspReady : Bool) : State :=
  { State.reset with
    queue := [⟨⟨.ok, 42⟩, 0⟩], cycle := Config.rspLatency, pins := { Inputs.idle with rspReady := rspReady } }

theorem presenting_quiet (y : Bool) : (presenting y).Quiet := ⟨rfl, rfl, rfl, rfl, rfl⟩

theorem presenting_valid (y : Bool) : (presenting y).outputs.rspValid = true := by
  have hr : (⟨⟨.ok, 42⟩, 0⟩ : Entry).readyAt Config.rspLatency = true := readyAt_of_latency (by simp)
  have hv : (presenting y).rspValid = true := (rspValid_iff rfl).2 ⟨rfl, _, _, rfl, hr⟩
  simp [State.outputs, presenting] at hv ⊢
  simp [hv]

theorem witness_StatusCodesAreTheTables :
    (presenting false).resetSeen = true ∧ (presenting false).outputs.rspValid = true := ⟨rfl, presenting_valid _⟩

/-- A reset edge with a command in flight, after which reset is released. -/
def resetting : State := { presenting true with pins := { (presenting true).pins with rst := true } }

theorem witness_ResetEdgeEmptiesTheQueue : resetting.pins.rst = true := rfl

theorem witness_OneResetEdgeSuffices :
    resetting.pins.rst = true ∧ ∃ t, step resetting = .next t ∧ t.pins.rst = false := ⟨rfl, _, rfl, rfl⟩

/-- StepRunsTheDecodedCommand and AcceptanceAppendsExecute; nothing is delivered at this edge. -/
theorem witness_StepRunsTheDecodedCommand :
    let s := offered 0x00060E10 1 2
    s.pins.rst = false ∧ s.resetSeen = true ∧ s.requestStable = true ∧ s.pins.reqValid = true ∧
      s.queue.length < Config.maxInflight ∧ decode s.pins.reqCmd = .ok (.bfext true 14 6) ∧ s.delivering = false :=
  ⟨rfl, rfl, rfl, rfl, one_le_maxInflight, by decide, rfl⟩

theorem witness_PresentedTableWordRunsNext : decodeTableWord 32 0x00060E10 = some (.bfext true 14 6) := by decide

/-- EdgeTransfersExactlyByHandshake, with a command accepted. -/
theorem witness_EdgeTransfersExactlyByHandshake :
    (offered 0 1 2).pins.rst = false ∧ (offered 0 1 2).resetSeen = true ∧ (offered 0 1 2).requestStable = true ∧
      (offered 0 1 2).accepting = true := ⟨rfl, rfl, rfl, offered_accepting _ _ _⟩

/-- A full queue whose oldest response is ready and taken, with a further command offered. -/
def full : State :=
  { presenting true with
    queue := List.replicate Config.maxInflight ⟨⟨.ok, 42⟩, 0⟩, pins := (offered 0 1 2).pins }

theorem full_valid : full.outputs.rspValid = true := by
  have hr : (⟨⟨.ok, 42⟩, 0⟩ : Entry).readyAt Config.rspLatency = true := readyAt_of_latency (by simp)
  have hv : full.rspValid = true := (rspValid_iff rfl).2 ⟨rfl, _, List.replicate Config.extraInflight _, rfl, hr⟩
  unfold State.outputs
  split <;> simp [hv]

theorem witness_RequestReadyBelowDepth :
    full.pins.rst = false ∧ full.resetSeen = true ∧ full.queue.length = Config.maxInflight ∧
      full.outputs.rspValid = true ∧ full.pins.rspReady = true ∧ ∃ t, step full = .next t :=
  ⟨rfl, rfl, by simp [full], full_valid, rfl, _, step_live rfl rfl rfl⟩

/-- Each clause of ResponseValidWithinLatency: nothing in flight; the accepting cycle; `RSP_LATENCY` cycles later, where
`rsp_valid` is 1. -/
theorem witness_ResponseValidWithinLatency :
    (State.reset.resetSeen = true ∧ State.reset.pins.rst = false ∧ State.reset.queue = []) ∧
    (let s : State := { presenting false with cycle := 0 }
     s.resetSeen = true ∧ s.pins.rst = false ∧ s.queue = [⟨⟨.ok, 42⟩, 0⟩] ∧ s.cycle ≤ 0) ∧
    (let s := presenting false
     s.resetSeen = true ∧ s.pins.rst = false ∧ s.queue = [⟨⟨.ok, 42⟩, 0⟩] ∧ 0 + Config.rspLatency ≤ s.cycle ∧
      s.outputs.rspValid = true) :=
  ⟨⟨rfl, rfl, rfl⟩, ⟨rfl, rfl, rfl, Nat.le_refl _⟩, rfl, rfl, rfl, Nat.le_of_eq (Nat.zero_add _), presenting_valid _⟩

theorem witness_ResponseHeldUntilTaken :
    (presenting false).resetSeen = true ∧ (presenting false).outputs.rspValid = true ∧
      (presenting false).pins.rspReady = false ∧ ∃ t, step (presenting false) = .next t ∧ t.pins.rst = false :=
  ⟨rfl, presenting_valid _, rfl, (quiet_step (presenting_quiet _)).imp fun _ h => ⟨h.1, h.2.1.noReset⟩⟩

/-- Each refusal of RefusedExactlyOutsideTheRules happens: before the first reset, and to a withdrawn request. -/
theorem witness_RefusedExactlyOutsideTheRules :
    step { State.reset with resetSeen := false } = .refused .noResetSincePowerUp ∧
    step { State.reset with pending := some ⟨2, 1, 0⟩ } = .refused .requestChanged := ⟨rfl, rfl⟩

theorem witness_UnacceptedRequestMustBeHeld : ∃ t, step (offered 0 1 2) = .next t := ⟨_, step_live rfl rfl rfl⟩

/-- NextInputsComeFromTheScript: a state with a script and one without, each with an edge. -/
theorem witness_NextInputsComeFromTheScript :
    (∃ t, step { offered 0 1 2 with script := [Inputs.idle] } = .next t) ∧ (∃ t, step (offered 0 1 2) = .next t) ∧
      (offered 0 1 2).script = [] := ⟨⟨_, step_live rfl rfl rfl⟩, ⟨_, step_live rfl rfl rfl⟩, rfl⟩

/-- ResponseDependsOnRequestAlone: two states that agree on the request and differ in their delivered responses. -/
theorem witness_ResponseDependsOnRequestAlone :
    let s := offered 0x702 5 6
    let s' := { offered 0x702 5 6 with delivered := [⟨.illegal, 0⟩], cycle := 9 }
    s.requestStable = true ∧ s.accepting = true ∧ s'.requestStable = true ∧ s'.accepting = true ∧
      s.pins.request = s'.pins.request :=
  ⟨rfl, offered_accepting _ _ _, rfl, offered_accepting _ _ _, rfl⟩

/-- InvariantKeptByEveryEdge and EdgeRefinesTransactions: a sound state with a command in flight, and its edge. -/
theorem presenting_inv (y : Bool) : (presenting y).Inv :=
  ⟨one_le_maxInflight, by simp [presenting], by simp [presenting, Config.rspLatency], by simp [presenting, Response.Sound],
    by simp [presenting, State.reset]⟩

theorem witness_InvariantKeptByEveryEdge : (presenting true).Inv ∧ ∃ t, step (presenting true) = .next t :=
  ⟨presenting_inv _, _, step_live rfl rfl rfl⟩

/-- OneResponseEachInAcceptanceOrder: three edges with a response in flight. -/
theorem witness_OneResponseEachInAcceptanceOrder :
    NoResetDuring 3 (presenting true) ∧ ∃ t, RunsTo 3 (presenting true) t :=
  ⟨quiet_noReset (presenting_quiet _) 3, (quiet_runs (presenting_quiet _) 3).imp fun _ h => h.1⟩

/-- TransactionStepsOfTheSpec: below and at the depth. -/
theorem witness_TransactionStepsOfTheSpec : ([] : List Response).length < 1 ∧ 1 ≤ [(⟨.ok, 1⟩ : Response)].length := by decide

/-- EveryResponseDeliveredInBoundedTime, with one response in flight, taken at once. -/
theorem witness_EveryResponseDeliveredInBoundedTime :
    let N := Config.rspLatency + 1 * (presenting true).queue.length
    (presenting true).Inv ∧ NoResetDuring N (presenting true) ∧ TakesWithin 1 N (presenting true) ∧
      ∃ t, RunsTo N (presenting true) t :=
  ⟨presenting_inv _, quiet_noReset (presenting_quiet _) _, quiet_takes (presenting_quiet _) rfl _,
    (quiet_runs (presenting_quiet _) _).imp fun _ h => h.1⟩

/-- The state after `offered`'s edge is quiet and takes responses. -/
theorem offered_then_quiet (cmd : Cmd) (a b : Word) :
    ∃ t, step (offered cmd a b) = .next t ∧ t.Quiet ∧ t.pins.rspReady = true := by
  refine ⟨_, step_live rfl rfl rfl, ?_⟩
  simp only [offered_accepting, if_true]
  exact ⟨⟨rfl, rfl, rfl, rfl, rfl⟩, rfl⟩

/-- EveryOfferAcceptedInBoundedTime. -/
theorem witness_EveryOfferAcceptedInBoundedTime :
    let N := Config.rspLatency + 1 + 1
    (offered 0 1 2).Inv ∧ (offered 0 1 2).pins.reqValid = true ∧ NoResetDuring N (offered 0 1 2) ∧
      TakesWithin 1 N (offered 0 1 2) ∧ ∃ t, RunsTo N (offered 0 1 2) t := by
  obtain ⟨u, hu, hq, hy⟩ := offered_then_quiet 0 1 2
  refine ⟨⟨Nat.zero_le _, .nil, nofun, nofun, nofun⟩, rfl, fun k _ t ht => ?_, fun k _ => ⟨k, Nat.le_refl _, Nat.lt_succ_self _, fun t ht => ?_⟩, ?_⟩
  · cases k with
    | zero => rw [runsTo_zero] at ht; exact ht ▸ rfl
    | succ k =>
      obtain ⟨v, hv, ht⟩ := runsTo_succ.1 ht
      cases hv.symm.trans hu
      exact quiet_noReset hq (k + 1) k (Nat.lt_succ_self _) t ht
  · cases k with
    | zero => rw [runsTo_zero] at ht; exact ht ▸ rfl
    | succ k =>
      obtain ⟨v, hv, ht⟩ := runsTo_succ.1 ht
      cases hv.symm.trans hu
      obtain ⟨w, hw, -, hp⟩ := quiet_runs hq k
      rw [runsTo_unique ht hw, hp, hy]
  · obtain ⟨t, ht, -⟩ := quiet_runs hq (Config.rspLatency + 1)
    exact ⟨t, runsTo_succ.2 ⟨u, hu, ht⟩⟩

/-- Each clause of IntegerCallsNeverWrap at its ends: in range; negative; a sum over 64; a value that 7 bits would
truncate to a legal one. -/
theorem witness_IntegerCallsNeverWrap :
    ((0 : Int) ≤ 63 ∧ (1 : Int) ≤ 1 ∧ (1 : Int) ≤ 64 ∧ (63 : Int) + 1 ≤ 64) ∧
    ¬((0 : Int) ≤ -1) ∧ ¬((64 : Int) + 1 ≤ 64) ∧ ((127 : Int) < 128) ∧ ((0 : Int) ≤ 7 ∧ (7 : Int) ≤ 7) ∧
    ¬((8 : Int) ≤ 7) := by decide

theorem witness_ErrorLinesLeaveVariables :
    let q : Requester := ⟨[(0, 0xFEDCBA9876543210)], .ok⟩
    let l := lineBfins 0 (.var 0) (.lit 1) 60 5
    (callAnswer l.call (q.value l.ra) (q.value l.rb)).status ≠ .ok := by decide

theorem witness_LittleEndianInsertPseudoInstruction : Source.lit 0xFF ≠ Source.var 3 ∧ Source.var 2 ≠ Source.var 3 := by decide

/-- UnserializedUpdateCanBeLost: two fields in range; an argument that 7 bits would truncate to a legal one. -/
theorem witness_UnserializedUpdateCanBeLost :
    fieldOK 0 8 = true ∧ fieldOK 56 8 = true ∧ ¬((256 : Int) + 8 ≤ 64) := by decide

/-- R66: a writer at startPos 256 issues no truncated command and its buffer stays. -/
theorem test_writer_never_truncates :
    (Shared.run ⟨0xFEDCBA9876543210, [⟨0, 256, 8, .start⟩]⟩ [0, 0, 0]).buffer = 0xFEDCBA9876543210 ∧
    callCommand (.bfins 256 8) = none := by decide

/-- PayloadPackings: a packing, neither of the two named ones, that puts payload byte 0 into byte 7. -/
theorem witness_PayloadPackings :
    let packing : Packing := fun p => (p[0]).setWidth 64
    let p : Payload := Vector.replicate 8 0xA5
    byteOf (packing p) 7 = p[0] := by decide

/-- Each part of OkLinesWriteOnlyTheirDestination: a line answered OK, with a further variable; the fields' and bytes' ends
are witness_fieldInRange and witness_byteInRange. -/
theorem witness_OkLinesWriteOnlyTheirDestination :
    let q : Requester := ⟨[(0, 0x0102030405060708)], .range⟩
    let l := lineNthbyte 1 (.var 0) 7
    (callAnswer l.call (q.value l.ra) (q.value l.rb)).status = .ok ∧ (0 : Nat) ≠ l.rd := by decide

end Sys2Proof.Tests
end

section
/-! PROOFS. The handshake ports, the edge that accepts and the edge that delivers (spec 10_state.md), and the
obligations O28, O30, O36 and O40 assembled from them. -/

namespace Sys2Proof.Machine

/-! ### The handshake ports (R23, R24) -/

@[simp] theorem outputs_reqReady (s : State) : s.outputs.reqReady = s.reqReady := by
  unfold State.outputs
  split
  · split <;> rfl
  · rfl

@[simp] theorem outputs_rspValid (s : State) : s.outputs.rspValid = s.rspValid := by
  unfold State.outputs
  split
  · split <;> rfl
  · rfl

/-- The response handshake, read off the ports, is a delivery (R24). -/
theorem delivering_of_handshake {s : State} (h0 : s.pins.rst = false) (hv : s.outputs.rspValid = true)
    (hy : s.pins.rspReady = true) : s.delivering = true := by
  rw [outputs_rspValid] at hv
  simp [State.delivering, h0, hv, hy]

/-- A full queue closes the request port, whatever the response port does (R27). -/
theorem not_accepting_of_full {s : State} (hr : s.resetSeen = true) (hfull : s.queue.length = Config.maxInflight) :
    s.accepting = false := by
  rw [Bool.eq_false_iff, ne_eq, accepting_iff hr]
  rintro ⟨-, -, hlt⟩
  exact hlt.ne hfull

/-! ### What an edge that delivers, and an edge that accepts, leaves (R34, R35) -/

theorem afterDelivery_queue_of_delivering {s : State} (hr : s.resetSeen = true) (hd : s.delivering = true) :
    s.afterDelivery.queue = s.queue.tail := by
  obtain ⟨-, e, q, hq, -, hs⟩ | ⟨hnd, -⟩ := afterDelivery_cases hr
  · simp [hs, hq]
  · simp [hnd] at hd

/-- An accepted request leaves nothing to hold (R25). -/
@[simp] theorem heldRequest_accepted (s : State) : s.heldRequest true = none := by simp [State.heldRequest]

/-- The accepting edge: `Execute` of the port values joins the queue behind what this edge's delivery leaves, and
nothing is left to hold. -/
theorem step_accepting {s : State} (h0 : s.pins.rst = false) (hr : s.resetSeen = true)
    (hs : s.requestStable = true) (ha : s.accepting = true) :
    ∃ t, step s = .next t ∧ t.pending = none ∧
      t.queue = s.afterDelivery.queue ++ [⟨execute s.pins.reqCmd s.pins.reqA s.pins.reqB, s.cycle⟩] :=
  ⟨_, step_live h0 hr hs, by simp [ha], by simp [ha]⟩

/-! ### The obligations -/

/-- Settles O28: the conditions given are those of acceptance, and `step_accepting` says what that edge leaves. -/
theorem acceptanceAppendsExecute : Obligations.AcceptanceAppendsExecute := by
  intro s h0 hr hs hv hroom
  exact step_accepting h0 hr hs ((accepting_iff hr).2 ⟨h0, hv, hroom⟩)

/-- Settles O30: at a full queue the edge does not accept, so that only the delivery touches the queue. -/
theorem requestReadyBelowDepth : Obligations.RequestReadyBelowDepth := by
  refine ⟨fun s hr => ?ready, fun s t h0 hr hfull hvalid hy hstep => ?full⟩
  case ready => rw [outputs_reqReady, reqReady_iff hr]
  case full =>
    have hna : s.accepting = false := not_accepting_of_full hr hfull
    have hd : s.delivering = true := delivering_of_handshake h0 hvalid hy
    obtain ⟨h1, -⟩ | ⟨-, -, -, ⟨ha, -⟩ | ⟨-, rfl⟩⟩ := step_cases hstep
    · simp [h0] at h1
    · simp [hna] at ha
    · rw [State.nextCycle_queue, afterDelivery_queue_of_delivering hr hd]

/-- Settles O36: both edges append `Execute` of their port values, and the port values are the same. -/
theorem responseDependsOnRequestAlone : Obligations.ResponseDependsOnRequestAlone := by
  intro s s' h0 hr hs ha h0' hr' hs' ha' hreq
  obtain ⟨t, ht, -, hq⟩ := step_accepting h0 hr hs ha
  obtain ⟨t', ht', -, hq'⟩ := step_accepting h0' hr' hs' ha'
  obtain ⟨hcmd, hA, hB⟩ : s.pins.reqCmd = s'.pins.reqCmd ∧ s.pins.reqA = s'.pins.reqA ∧
      s.pins.reqB = s'.pins.reqB := by
    simpa [Inputs.request] using hreq
  rw [← hcmd, ← hA, ← hB] at hq'
  exact ⟨t, t', _, _, _, ht, ht', hq, hq'⟩

/-- Settles O40: the guard of Accept is `hasRoom`, which is the length bound; Deliver and Reset read no bound. -/
theorem transactionStepsOfTheSpec : Obligations.TransactionStepsOfTheSpec := by
  intro depth q r x
  refine ⟨fun hlt => ?below, fun hle => ?full, rfl, rfl, rfl⟩
  case below => simp [Action.apply, hasRoom_iff.2 hlt]
  case full =>
    have hno : ¬ hasRoom q depth = true := fun h => (hasRoom_iff.1 h).not_ge hle
    simp [Action.apply, hno]

end Sys2Proof.Machine
end

section
/-! PROOFS. Illegal words, the way back from the encoder's word, integer calls and STATUS codes (spec 30_encoding.md),
and the obligations O6, O44 and O22 assembled from them. -/

namespace Sys2Proof

/-! ### The opcode map against OP and the reserved bits (R64, R69) -/

/-- OP is what the mask `0xF` leaves of a command word (R59). -/
theorem toNat_and_opMask (cmd : Cmd) : (cmd &&& 0xF#32).toNat = cmdOp cmd := by
  have h := Nat.and_two_pow_sub_one_eq_mod cmd.toNat 4
  simpa [cmdOp] using h

theorem cmdOp_eq_iff {cmd : Cmd} {op : Nat} (ho : op < 2 ^ 4) :
    cmdOp cmd = op ↔ cmd &&& 0xF#32 = BitVec.ofNat 32 op := by
  rw [← BitVec.toNat_inj, toNat_and_opMask, BitVec.toNat_ofNat, Nat.mod_eq_of_lt (by omega)]

/-- Comparing under two disjoint masks at once, with a value inside the first, is comparing under each. -/
theorem and_or_eq_iff {x m r v : Cmd} (hv : v &&& m = v) (hr : m &&& r = 0#32) :
    x &&& (m ||| r) = v ↔ x &&& m = v ∧ x &&& r = 0#32 := by
  have absorb_left : (m ||| r) &&& m = m := by ext i hi; simp +contextual
  have absorb_right : (m ||| r) &&& r = r := by ext i hi; simp +contextual
  constructor
  · intro h
    have hm : x &&& m = v := by rw [← absorb_left, ← BitVec.and_assoc, h, hv]
    have h0 : x &&& r = 0#32 := by
      rw [← absorb_right, ← BitVec.and_assoc, h, ← hv, BitVec.and_assoc, hr, BitVec.and_zero]
    exact ⟨hm, h0⟩
  · rintro ⟨hm, h0⟩
    rw [BitVec.and_or_distrib_left, hm, h0, BitVec.or_zero]

/-- A word matches no row of the opcode map exactly when it is none of the three operations with its reserved bits 0. -/
theorem noRow_iff {cmd : Cmd} :
    (∀ row ∈ opcodeRows, row.selects cmd = false) ↔
      ¬(cmdOp cmd = 0 ∧ cmd &&& 0xFF8080E0#32 = 0#32) ∧ ¬(cmdOp cmd = 1 ∧ cmd &&& 0xFF8080F0#32 = 0#32) ∧
      ¬(cmdOp cmd = 2 ∧ cmd &&& 0xFFFF80F0#32 = 0#32) := by
  rw [cmdOp_eq_iff (op := 0) (by decide), cmdOp_eq_iff (op := 1) (by decide), cmdOp_eq_iff (op := 2) (by decide),
    ← and_or_eq_iff (by decide) (by decide), ← and_or_eq_iff (by decide) (by decide),
    ← and_or_eq_iff (by decide) (by decide)]
  simp [opcodeRows, OpcodeRow.selects]

/-- The decoder refuses a word that matches no row (R70). -/
theorem decode_error_of_noRow {cmd : Cmd} (h : ∀ row ∈ opcodeRows, row.selects cmd = false) :
    ∃ e, decode cmd = .error e := by
  obtain ⟨h0, h1, h2⟩ := noRow_iff.1 h
  obtain ⟨hop, hm, -⟩ | ⟨hop, hm, -⟩ | ⟨hop, hm, -⟩ | ⟨he, -⟩ := decode_cases cmd
  · exact absurd ⟨hop, hm⟩ h0
  · exact absurd ⟨hop, hm⟩ h1
  · exact absurd ⟨hop, hm⟩ h2
  · exact he

/-! ### Decoding the encoder's word (R59, R75) -/

theorem wellFormed_bfext {be : Bool} {pos len : Nat} :
    (Instr.bfext be pos len).WellFormed ↔ pos ≤ 127 ∧ len ≤ 127 := by
  simp [Instr.WellFormed, Instr.wellFormed, fitsField_iff]

theorem wellFormed_bfins {pos len : Nat} : (Instr.bfins pos len).WellFormed ↔ pos ≤ 127 ∧ len ≤ 127 := by
  simp [Instr.WellFormed, Instr.wellFormed, fitsField_iff]

theorem wellFormed_nthbyte {n : Nat} : (Instr.nthbyte n).WellFormed ↔ n ≤ 127 := by
  simp [Instr.WellFormed, Instr.wellFormed, fitsField_iff]

/-- Each constructor's word is accepted under its own OP, and its fields read back. -/
theorem decode_encode {i : Instr} (h : i.WellFormed) : decode (encode i) = .ok i := by
  cases i with
  | bfext be pos len =>
    obtain ⟨hok, hop⟩ := Laws.EncodingAccepted.bfext be pos len h
    obtain ⟨hp, hl⟩ := wellFormed_bfext.1 h
    have hpos : cmdPos (packCmd 0 be pos len) = pos := cmdPos_packCmd be (by decide) (by omega)
    have hlen : cmdLen (packCmd 0 be pos len) = len := cmdLen_packCmd be (by decide) (by omega) (by omega)
    have hbe : cmdBe (packCmd 0 be pos len) = be := cmdBe_packCmd be (by decide)
    simp only [decode, hok, hop]
    simp [encode, hbe, hpos, hlen]
  | bfins pos len =>
    obtain ⟨hok, hop⟩ := Laws.EncodingAccepted.bfins pos len h
    obtain ⟨hp, hl⟩ := wellFormed_bfins.1 h
    have hpos : cmdPos (packCmd 1 false pos len) = pos := cmdPos_packCmd false (by decide) (by omega)
    have hlen : cmdLen (packCmd 1 false pos len) = len := cmdLen_packCmd false (by decide) (by omega) (by omega)
    simp only [decode, hok, hop]
    simp [encode, hpos, hlen]
  | nthbyte n =>
    obtain ⟨hok, hop⟩ := Laws.EncodingAccepted.nthbyte n h
    have hn : n ≤ 127 := wellFormed_nthbyte.1 h
    have hpos : cmdPos (packCmd 2 false n 0) = n := cmdPos_packCmd false (by decide) (by omega)
    simp only [decode, hok, hop]
    simp [encode, hpos]

end Sys2Proof

namespace Sys2Proof.Machine

/-! ### `Execute` by what the word decodes to (R70, R86) -/

theorem execute_of_noRow {cmd : Cmd} (h : ∀ row ∈ opcodeRows, row.selects cmd = false) (a b : Word) :
    execute cmd a b = raise .illegal := by
  obtain ⟨e, he⟩ := decode_error_of_noRow h
  simp [execute, he]

theorem execute_encode_bfext {be : Bool} {pos len : Nat} (hp : pos ≤ 127) (hl : len ≤ 127) (a b : Word) :
    execute (encode (.bfext be pos len)) a b = bfextResponse be pos len a := by
  rw [execute, decode_encode (wellFormed_bfext.2 ⟨hp, hl⟩)]

theorem execute_encode_bfins {pos len : Nat} (hp : pos ≤ 127) (hl : len ≤ 127) (a b : Word) :
    execute (encode (.bfins pos len)) a b = bfinsResponse pos len a b := by
  rw [execute, decode_encode (wellFormed_bfins.2 ⟨hp, hl⟩)]

theorem execute_encode_nthbyte {n : Nat} (hn : n ≤ 127) (a b : Word) :
    execute (encode (.nthbyte n)) a b = nthbyteResponse n a := by
  rw [execute, decode_encode (wellFormed_nthbyte.2 hn)]

/-! ### The range check decides between OK and RANGE (R79, R86) -/

section
variable {pos len n : Nat} (be : Bool) (a b : Word)

theorem bfextResponse_status_of_fieldOK (h : fieldOK pos len = true) : (bfextResponse be pos len a).status = .ok := by
  simp [bfextResponse, h]

theorem bfextResponse_of_not_fieldOK (h : fieldOK pos len = false) : bfextResponse be pos len a = raise .range := by
  simp [bfextResponse, h]

theorem bfinsResponse_status_of_fieldOK (h : fieldOK pos len = true) : (bfinsResponse pos len a b).status = .ok := by
  simp [bfinsResponse, h]

theorem bfinsResponse_of_not_fieldOK (h : fieldOK pos len = false) : bfinsResponse pos len a b = raise .range := by
  simp [bfinsResponse, h]

theorem nthbyteResponse_status_of_byteOK (h : byteOK n = true) : (nthbyteResponse n a).status = .ok := by
  simp [nthbyteResponse, h]

theorem nthbyteResponse_of_not_byteOK (h : byteOK n = false) : nthbyteResponse n a = raise .range := by
  simp [nthbyteResponse, h]

end

/-! ### Calls with integer arguments (R66) -/

/-- An integer argument that has an encoding is one of the numbers 0 to 127. -/
theorem exists_nat_of_fieldValue {x : Int} (h : fieldValue x ≠ none) : ∃ k : Nat, x = k ∧ k ≤ 127 := by
  obtain ⟨k, hk⟩ := Option.ne_none_iff_exists'.1 h
  exact ⟨k, fieldValue_eq_some.1 hk⟩

theorem callCommand_bfext_eq_none {be : Bool} {x y : Int} :
    callCommand (.bfext be x y) = none ↔ fieldValue x = none ∨ fieldValue y = none := by
  cases hx : fieldValue x <;> cases hy : fieldValue y <;> simp [callCommand, hx, hy]

theorem callCommand_bfins_eq_none {x y : Int} :
    callCommand (.bfins x y) = none ↔ fieldValue x = none ∨ fieldValue y = none := by
  cases hx : fieldValue x <;> cases hy : fieldValue y <;> simp [callCommand, hx, hy]

theorem callCommand_nthbyte_eq_none {x : Int} : callCommand (.nthbyte x) = none ↔ fieldValue x = none := by
  cases hx : fieldValue x <;> simp [callCommand, hx]

theorem callAnswer_of_no_command {c : Call} (h : callCommand c = none) (a b : Word) :
    callAnswer c a b = raise .range := by
  simp [callAnswer, h]

section
variable {pos len n : Nat} (a b : Word)

theorem callAnswer_bfext (be : Bool) (hp : pos ≤ 127) (hl : len ≤ 127) :
    callAnswer (.bfext be pos len) a b = bfextResponse be pos len a := by
  have hx : fieldValue pos = some pos := fieldValue_eq_some.2 ⟨rfl, hp⟩
  have hy : fieldValue len = some len := fieldValue_eq_some.2 ⟨rfl, hl⟩
  simp only [callAnswer, callCommand, hx, hy, execute_encode_bfext hp hl]

theorem callAnswer_bfins (hp : pos ≤ 127) (hl : len ≤ 127) :
    callAnswer (.bfins pos len) a b = bfinsResponse pos len a b := by
  have hx : fieldValue pos = some pos := fieldValue_eq_some.2 ⟨rfl, hp⟩
  have hy : fieldValue len = some len := fieldValue_eq_some.2 ⟨rfl, hl⟩
  simp only [callAnswer, callCommand, hx, hy, execute_encode_bfins hp hl]

theorem callAnswer_nthbyte (hn : n ≤ 127) : callAnswer (.nthbyte n) a b = nthbyteResponse n a := by
  have hx : fieldValue n = some n := fieldValue_eq_some.2 ⟨rfl, hn⟩
  simp only [callAnswer, callCommand, hx, execute_encode_nthbyte hn]

end

/-! ### STATUS on the response port (R68) -/

/-- Each code reads back as the status it encodes. -/
theorem statusOfCode_statusCode (st : Status) : statusOfCode (statusCode st) = some st := by
  cases st <;> rfl

theorem statusCode_ne_reserved (st : Status) : statusCode st ≠ 0b11#2 := by
  cases st <;> decide

/-- While `rsp_valid` is 1, `rsp_status` is the code of the oldest response in flight (R28). -/
theorem outputs_rspStatus {s : State} (hr : s.resetSeen = true) (hv : s.outputs.rspValid = true) :
    ∃ e ∈ s.queue, s.outputs.rspStatus = statusCode e.response.status := by
  rw [outputs_rspValid] at hv
  obtain ⟨-, e, q, hq, -⟩ := (rspValid_iff hr).1 hv
  exact ⟨e, by simp [hq], by simp [State.outputs, hq, hv]⟩

/-! ### The obligations -/

/-- Settles O6: by `noRow_iff` a word without a row fails its operation's reserved mask or has no operation, and the
accepting edge answers it by `Execute`, which raises ILLEGAL before it reads A or B. -/
theorem illegalWordIsAnsweredInOrder : Obligations.IllegalWordIsAnsweredInOrder := by
  refine ⟨fun cmd => ?words, fun s h0 hr hs hv hroom hrow => ?edge⟩
  case words =>
    rw [noRow_iff, ← cmdOp]
    have hop : cmdOp cmd = 0 ∨ cmdOp cmd = 1 ∨ cmdOp cmd = 2 ∨ 3 ≤ cmdOp cmd := by omega
    obtain h | h | h | h := hop
    · simp [h]
    · simp [h]
    · simp [h]
    · simp [h, show cmdOp cmd ≠ 0 ∧ cmdOp cmd ≠ 1 ∧ cmdOp cmd ≠ 2 by omega]
  case edge =>
    have ha : s.accepting = true := (accepting_iff hr).2 ⟨h0, hv, hroom⟩
    refine ⟨_, step_live h0 hr hs, ?_, ?_⟩
    · simp [ha, execute_of_noRow hrow, raise, respond]
    · simp [ha]

/-- Settles O44: an argument is a field's value, where the command's own range check is the source's invariant on
unbounded numbers, or has no encoding, where it is below 0 or above 127 and so outside that invariant. -/
theorem integerCallsNeverWrap : Obligations.IntegerCallsNeverWrap := by
  refine ⟨fun be x y a b => ?field, fun x a b => ?byte, fun be x y hx => ?noCommand⟩
  case field =>
    by_cases hnone : fieldValue x = none ∨ fieldValue y = none
    · have hout : ¬(0 ≤ x ∧ 1 ≤ y ∧ y ≤ 64 ∧ x + y ≤ 64) := by
        simp only [fieldValue_eq_none] at hnone
        omega
      exact ⟨fun hin => absurd hin hout, fun _ =>
        ⟨callAnswer_of_no_command (callCommand_bfext_eq_none.2 hnone) a b,
          callAnswer_of_no_command (callCommand_bfins_eq_none.2 hnone) a b⟩⟩
    · obtain ⟨hx, hy⟩ := not_or.1 hnone
      obtain ⟨pos, rfl, hp⟩ := exists_nat_of_fieldValue hx
      obtain ⟨len, rfl, hl⟩ := exists_nat_of_fieldValue hy
      have hok : (0 ≤ (pos : Int) ∧ 1 ≤ (len : Int) ∧ (len : Int) ≤ 64 ∧ (pos : Int) + len ≤ 64) ↔
          fieldOK pos len = true := by
        rw [fieldOK_iff]
        omega
      rw [hok, Bool.not_eq_true, callAnswer_bfext a b be hp hl, callAnswer_bfins a b hp hl]
      exact ⟨fun h => ⟨bfextResponse_status_of_fieldOK be a h, bfinsResponse_status_of_fieldOK a b h⟩,
        fun h => ⟨bfextResponse_of_not_fieldOK be a h, bfinsResponse_of_not_fieldOK a b h⟩⟩
  case byte =>
    by_cases hnone : fieldValue x = none
    · have hout : ¬(0 ≤ x ∧ x ≤ 7) := by
        rw [fieldValue_eq_none] at hnone
        omega
      exact ⟨fun hin => absurd hin hout,
        fun _ => callAnswer_of_no_command (callCommand_nthbyte_eq_none.2 hnone) a b⟩
    · obtain ⟨n, rfl, hn⟩ := exists_nat_of_fieldValue hnone
      have hok : (0 ≤ (n : Int) ∧ (n : Int) ≤ 7) ↔ byteOK n = true := by
        rw [byteOK_iff]
        omega
      rw [hok, Bool.not_eq_true, callAnswer_nthbyte a b hn]
      exact ⟨nthbyteResponse_status_of_byteOK a, nthbyteResponse_of_not_byteOK a⟩
  case noCommand =>
    have hnone : fieldValue x = none := fieldValue_eq_none.2 hx
    exact ⟨callCommand_bfext_eq_none.2 (.inl hnone), callCommand_bfext_eq_none.2 (.inr hnone),
      callCommand_bfins_eq_none.2 (.inl hnone), callCommand_bfins_eq_none.2 (.inr hnone),
      callCommand_nthbyte_eq_none.2 hnone⟩

/-- Settles O22: a presented code is `statusCode` of an entry in flight, and no status has the code `0b11`. -/
theorem statusCodesAreTheTables : Obligations.StatusCodesAreTheTables := by
  refine ⟨rfl, rfl, rfl, fun st w => ?reads, fun w => rfl, fun s hr hv => ?presented⟩
  case reads => simp [readResponse, statusOfCode_statusCode]
  case presented =>
    obtain ⟨e, -, hcode⟩ := outputs_rspStatus hr hv
    rw [hcode]
    exact statusCode_ne_reserved e.response.status

end Sys2Proof.Machine
end

section
/-! PROOFS. The byte swap, the mask, the words the operations make as arithmetic, and `Execute` by OP and the reserved
bits (spec 40_datapath.md), and the obligations O7, O9 and O16 assembled from them. -/

namespace Sys2Proof.Machine

/-! ### The byte swap (R82) -/

/-- Byte `k` of the swapped word is the byte counted from the other end: bit `j` of it is bit `56 - 8k + j`, which
lies in byte `7 - k` from the low end. -/
theorem byteOf_byteSwap64 (w : Word) {k : Nat} (hk : k < 8) : byteOf (byteSwap64 w) k = byteOf w (7 - k) := by
  refine BitVec.eq_of_getLsbD_eq fun j hj => ?_
  have hsource : 56 - 8 * ((56 - 8 * k + j) / 8) + (56 - 8 * k + j) % 8 = 56 - 8 * (7 - k) + j := by omega
  rw [getLsbD_byteOf, getLsbD_byteOf, getLsbD_byteSwap64 w (by omega), hsource]

/-- The slice of bits `8k+7` to `8k` is byte `7 - k` (R11). -/
theorem extractLsb'_eq_byteOf (w : Word) {k : Nat} (hk : k < 8) : w.extractLsb' (8 * k) 8 = byteOf w (7 - k) := by
  rw [byteOf, show 56 - 8 * (7 - k) = 8 * k by omega]

/-! ### The mask (R81) -/

theorem toNat_mask {len : Nat} (hl : len ≤ 64) : (mask len).toNat = 2 ^ len - 1 := by
  have hle : 2 ^ len ≤ 2 ^ 64 := Nat.pow_le_pow_right (by decide) hl
  exact Nat.mod_eq_of_lt (by omega)

/-- Masking keeps the remainder modulo `2^len`. -/
theorem toNat_and_mask (w : Word) {len : Nat} (hl : len ≤ 64) : (w &&& mask len).toNat = w.toNat % 2 ^ len := by
  rw [BitVec.toNat_and, toNat_mask hl, Nat.and_two_pow_sub_one_eq_mod]

/-- A right shift and a mask: the value of the `len` bits from bit `sh` up, the datapath of BFEXT and of NTHBYTE. -/
theorem toNat_ushiftRight_and_mask (w : Word) (sh : Nat) {len : Nat} (hl : len ≤ 64) :
    ((w >>> sh) &&& mask len).toNat = w.toNat / 2 ^ sh % 2 ^ len := by
  rw [toNat_and_mask _ hl, BitVec.toNat_ushiftRight, Nat.shiftRight_eq_div_pow]

/-! ### The word BFINS makes (R91) -/

section
variable {pos len : Nat} (a b : Word)

/-- A bit of the updated word: the value's inside the field, the buffer's outside it. -/
theorem getLsbD_insertField (hfit : pos + len ≤ 64) (i : Nat) :
    (insertField pos len a b).getLsbD i =
      if fieldShift pos len ≤ i ∧ i < fieldShift pos len + len then b.getLsbD (i - fieldShift pos len)
      else a.getLsbD i := by
  have htop : fieldShift pos len + len ≤ 64 := by unfold fieldShift; omega
  simp only [insertField, BitVec.getLsbD_or, BitVec.getLsbD_and, BitVec.getLsbD_not, BitVec.getLsbD_shiftLeft,
    getLsbD_mask]
  generalize fieldShift pos len = sh at htop ⊢
  obtain hlow | ⟨hle, hin⟩ | habove : i < sh ∨ (sh ≤ i ∧ i < sh + len) ∨ sh + len ≤ i := by omega
  · simpa [hlow, Nat.not_le.2 hlow] using BitVec.lt_of_getLsbD
  · simp [hle, Nat.not_lt.2 hle, hin, show i < 64 by omega, show i - sh < 64 by omega, show i - sh < len by omega]
  · simpa [Nat.not_lt.2 habove, show ¬ i - sh < len by omega] using BitVec.lt_of_getLsbD

/-- The updated word as a number: the buffer above the field, the value's low `len` bits in it, the buffer below it. -/
theorem toNat_insertField (hfit : pos + len ≤ 64) :
    (insertField pos len a b).toNat =
      a.toNat / 2 ^ (fieldShift pos len + len) * 2 ^ (fieldShift pos len + len) +
        b.toNat % 2 ^ len * 2 ^ fieldShift pos len + a.toNat % 2 ^ fieldShift pos len := by
  have hbit := getLsbD_insertField a b hfit
  generalize fieldShift pos len = sh at hbit ⊢
  have hnested : a.toNat / 2 ^ (sh + len) * 2 ^ (sh + len) + b.toNat % 2 ^ len * 2 ^ sh + a.toNat % 2 ^ sh =
      2 ^ sh * (2 ^ len * (a.toNat / 2 ^ (sh + len)) + b.toNat % 2 ^ len) + a.toNat % 2 ^ sh := by ring
  have hvalue : b.toNat % 2 ^ len < 2 ^ len := Nat.mod_lt _ (Nat.two_pow_pos len)
  have hbelow : a.toNat % 2 ^ sh < 2 ^ sh := Nat.mod_lt _ (Nat.two_pow_pos sh)
  refine Nat.eq_of_testBit_eq fun i => ?_
  rw [hnested, Nat.testBit_two_pow_mul_add _ hbelow, Nat.testBit_two_pow_mul_add _ hvalue]
  simp only [Nat.testBit_div_two_pow, Nat.testBit_mod_two_pow, BitVec.testBit_toNat, hbit]
  obtain hlow | ⟨hle, hin⟩ | habove : i < sh ∨ (sh ≤ i ∧ i < sh + len) ∨ sh + len ≤ i := by omega
  · simp [hlow, Nat.not_le.2 hlow]
  · simp [hle, hin, show i - sh < len by omega]
  · simp [Nat.not_lt.2 habove, show ¬ i < sh by omega, show ¬ i - sh < len by omega,
      show i - sh - len + (sh + len) = i by omega]

end

/-! ### The results of commands in range, as arithmetic (R89, R91, R93) -/

section
variable {pos len n : Nat} (be : Bool) (a b : Word)

theorem toNat_bfextResponse_result (h : fieldOK pos len = true) :
    (bfextResponse be pos len a).result.toNat =
      (endianNormalize be a).toNat / 2 ^ fieldShift pos len % 2 ^ len := by
  obtain ⟨-, hl, -⟩ := fieldOK_iff.1 h
  rw [bfextResponse, if_pos h, respond_result, toNat_ushiftRight_and_mask _ _ hl]

theorem bfinsResponse_result (h : fieldOK pos len = true) :
    (bfinsResponse pos len a b).result = insertField pos len a b := by
  rw [bfinsResponse, if_pos h, respond_result]

theorem toNat_bfinsResponse_result (h : fieldOK pos len = true) :
    (bfinsResponse pos len a b).result.toNat =
      a.toNat / 2 ^ (fieldShift pos len + len) * 2 ^ (fieldShift pos len + len) +
        b.toNat % 2 ^ len * 2 ^ fieldShift pos len + a.toNat % 2 ^ fieldShift pos len := by
  obtain ⟨-, -, hfit⟩ := fieldOK_iff.1 h
  rw [bfinsResponse_result a b h, toNat_insertField a b hfit]

theorem toNat_nthbyteResponse_result (h : byteOK n = true) :
    (nthbyteResponse n a).result.toNat = a.toNat / 2 ^ byteShift n % 256 := by
  rw [nthbyteResponse, if_pos h, respond_result]
  exact toNat_ushiftRight_and_mask a (byteShift n) (len := 8) (by decide)

end

/-! ### `Execute` by OP and the reserved bits (R85, R86) -/

section
variable {cmd : Cmd} (a b : Word)

theorem execute_bfext (hop : cmdOp cmd = 0) (hres : cmd &&& 0xFF8080E0#32 = 0#32) :
    execute cmd a b = bfextResponse (cmdBe cmd) (cmdPos cmd) (cmdLen cmd) a := by
  obtain ⟨-, hdec⟩ : reservedOK cmd = true ∧ decode cmd = .ok (.bfext (cmdBe cmd) (cmdPos cmd) (cmdLen cmd)) := by
    simpa [hop, hres] using decode_cases cmd
  rw [execute, hdec]

theorem execute_bfins (hop : cmdOp cmd = 1) (hres : cmd &&& 0xFF8080F0#32 = 0#32) :
    execute cmd a b = bfinsResponse (cmdPos cmd) (cmdLen cmd) a b := by
  obtain ⟨-, hdec⟩ : reservedOK cmd = true ∧ decode cmd = .ok (.bfins (cmdPos cmd) (cmdLen cmd)) := by
    simpa [hop, hres] using decode_cases cmd
  rw [execute, hdec]

theorem execute_nthbyte (hop : cmdOp cmd = 2) (hres : cmd &&& 0xFFFF80F0#32 = 0#32) :
    execute cmd a b = nthbyteResponse (cmdPos cmd) a := by
  obtain ⟨-, hdec⟩ : reservedOK cmd = true ∧ decode cmd = .ok (.nthbyte (cmdPos cmd)) := by
    simpa [hop, hres] using decode_cases cmd
  rw [execute, hdec]

end

/-! ### The obligations -/

/-- Settles O7: the slice of the result is its byte `7 - k`, so both parts are `byteOf_byteSwap64`. -/
theorem byteSwapReversesBytes : Obligations.ByteSwapReversesBytes := by
  intro w k hk
  refine ⟨?slice, byteOf_byteSwap64 w hk⟩
  case slice =>
    rw [extractLsb'_eq_byteOf _ hk, byteOf_byteSwap64 w (by omega), show 7 - (7 - k) = k by omega, byteOf]

/-- Settles O9: `len ≤ 64` makes the word's own bound on a bit number the weaker one. -/
theorem maskIsThermometer : Obligations.MaskIsThermometer := by
  refine ⟨fun len _ hl => ⟨fun i => ?bit, toNat_mask hl⟩, rfl⟩
  case bit =>
    have hwidth : i < 64 ∧ i < len ↔ i < len := by omega
    rw [getLsbD_mask, ← Bool.decide_and, decide_eq_decide.2 hwidth]

/-- Settles O16: for each OP, a reserved bit leaves the word without a row, and otherwise `Execute` is the operation's
own response, RANGE outside the range check and the arithmetic inside it. -/
theorem executeFollowsItsPseudocode : Obligations.ExecuteFollowsItsPseudocode := by
  intro cmd a b op pos len sh
  have hfield : fieldOK pos len = false ↔ ¬(1 ≤ len ∧ len ≤ 64 ∧ pos + len ≤ 64) := by
    rw [← Bool.not_eq_true, fieldOK_iff]
  have hbyte : byteOK pos = false ↔ 7 < pos := by rw [← Bool.not_eq_true, byteOK_iff, Nat.not_le]
  have illegal (h : ¬(op = 0 ∧ cmd &&& 0xFF8080E0#32 = 0#32) ∧ ¬(op = 1 ∧ cmd &&& 0xFF8080F0#32 = 0#32) ∧
      ¬(op = 2 ∧ cmd &&& 0xFFFF80F0#32 = 0#32)) : execute cmd a b = ⟨.illegal, 0⟩ :=
    execute_of_noRow (noRow_iff.2 h) a b
  refine ⟨fun hop => ⟨fun hres => illegal (by simp [hop, hres]), fun hres hout => ?bfextRange, fun hres hin => ?bfextOk⟩,
    fun hop => ⟨fun hres => illegal (by simp [hop, hres]), fun hres hout => ?bfinsRange, fun hres hin => ?bfinsOk⟩,
    fun hop => ⟨fun hres => illegal (by simp [hop, hres]), fun hres hout => ?nthbyteRange, fun hres hin => ?nthbyteOk⟩,
    fun hop => illegal (by omega)⟩
  case bfextRange => exact (execute_bfext a b hop hres).trans (bfextResponse_of_not_fieldOK _ a (hfield.2 hout))
  case bfextOk =>
    have hok := fieldOK_iff.2 hin
    rw [execute_bfext a b hop hres]
    exact ⟨bfextResponse_status_of_fieldOK _ a hok, toNat_bfextResponse_result _ a hok⟩
  case bfinsRange => exact (execute_bfins a b hop hres).trans (bfinsResponse_of_not_fieldOK a b (hfield.2 hout))
  case bfinsOk =>
    have hok := fieldOK_iff.2 hin
    rw [execute_bfins a b hop hres]
    exact ⟨bfinsResponse_status_of_fieldOK a b hok, toNat_bfinsResponse_result a b hok⟩
  case nthbyteRange => exact (execute_nthbyte a b hop hres).trans (nthbyteResponse_of_not_byteOK a (hbyte.2 hout))
  case nthbyteOk =>
    have hok := byteOK_iff.2 hin
    rw [execute_nthbyte a b hop hres]
    exact ⟨nthbyteResponse_status_of_byteOK a hok, toNat_nthbyteResponse_result a hok⟩

end Sys2Proof.Machine
end

section
/-! PROOFS. Reset while it is applied (spec 70_reset_and_hazards.md), and the obligation O24 assembled from it. -/

namespace Sys2Proof.Machine

/-! ### The ports and the handshakes under reset (R111)

No hypothesis on `resetSeen`: reset settles the ports before the first reset too (R114). -/

section
variable {s : State} (h : s.pins.rst = true)
include h

theorem reqReady_of_rst : s.reqReady = false := by simp [State.reqReady, h]

theorem rspValid_of_rst : s.rspValid = false := by simp [State.rspValid, h]

theorem accepting_of_rst : s.accepting = false := by simp [State.accepting, h]

theorem delivering_of_rst : s.delivering = false := by simp [State.delivering, h]

end

/-! ### The obligation -/

/-- Settles O24: `rst` closes both handshakes by itself, and the edge is `resetEdge`, which drops the queue and leaves
the deliveries. -/
theorem resetEdgeEmptiesTheQueue : Obligations.ResetEdgeEmptiesTheQueue := by
  intro s h
  refine ⟨?reqReady, ?rspValid, accepting_of_rst h, delivering_of_rst h,
    s.resetEdge, step_reset h, s.resetEdge_queue, s.resetEdge_delivered⟩
  case reqReady => rw [outputs_reqReady, reqReady_of_rst h]
  case rspValid => rw [outputs_rspValid, rspValid_of_rst h]

end Sys2Proof.Machine
end

section
/-! PROOFS. What a clock edge and a run without reset move through the in-flight queue (spec 10_state.md,
20_memory.md section 5), and the obligations O37, O38, O39 and O41 assembled from it. -/

namespace Sys2Proof.Machine

/-! ### Sound responses (R67, R97) -/

theorem Response.Sound.respond_ok (w : Word) : (respond .ok w).Sound := fun h => absurd rfl h

theorem Response.Sound.raise (st : Status) : (raise st).Sound := fun _ => rfl

theorem bfextResponse_sound (be : Bool) (pos len : Nat) (a : Word) : (bfextResponse be pos len a).Sound := by
  unfold bfextResponse
  split
  · exact .respond_ok _
  · exact .raise _

theorem bfinsResponse_sound (pos len : Nat) (a b : Word) : (bfinsResponse pos len a b).Sound := by
  unfold bfinsResponse
  split
  · exact .respond_ok _
  · exact .raise _

theorem nthbyteResponse_sound (n : Nat) (a : Word) : (nthbyteResponse n a).Sound := by
  unfold nthbyteResponse
  split
  · exact .respond_ok _
  · exact .raise _

theorem execute_sound (cmd : Cmd) (a b : Word) : (execute cmd a b).Sound := by
  unfold execute
  split
  · exact .raise _
  · exact bfextResponse_sound _ _ _ a
  · exact bfinsResponse_sound _ _ a b
  · exact nthbyteResponse_sound _ a

/-! ### The invariant under each part of an edge (R29, R32) -/

namespace State.Inv

variable {s : State}

theorem nextCycle (h : s.Inv) (accepted : Bool) : (s.nextCycle accepted).Inv where
  depth := h.depth
  ordered := h.ordered
  past e he := Nat.lt_succ_of_lt (h.past e he)
  sound := h.sound
  deliveredSound := h.deliveredSound

theorem afterDelivery (h : s.Inv) : s.afterDelivery.Inv := by
  obtain hs | ⟨e, q, hq, hs⟩ := afterDelivery_eq s
  · rwa [hs]
  · obtain ⟨hdepth, hordered, hpast, hsound, hdelivered⟩ := h
    rw [hq] at hdepth hordered hpast hsound
    rw [hs]
    exact {
      depth := Nat.le_of_succ_le hdepth
      ordered := hordered.of_cons
      past := fun x hx => hpast x (List.mem_cons_of_mem e hx)
      sound := fun x hx => hsound x (List.mem_cons_of_mem e hx)
      deliveredSound := fun r hr => by
        obtain hr | hr := List.mem_append.1 hr
        · exact hdelivered r hr
        · rw [List.mem_singleton.1 hr]
          exact hsound e List.mem_cons_self }

/-- The new entry is the youngest: every older one was accepted before this cycle, and the edge ends this cycle. -/
theorem answer_nextCycle (h : s.Inv) (hroom : s.queue.length < Config.maxInflight) {r : Response} (hr : r.Sound)
    (accepted : Bool) : ((s.answer r).nextCycle accepted).Inv where
  depth := by simpa using hroom
  ordered := by simpa [List.pairwise_append, h.ordered] using h.past
  past := by
    intro e he
    obtain he | he := List.mem_append.1 he
    · exact Nat.lt_succ_of_lt (h.past e he)
    · simp [List.mem_singleton.1 he]
  sound := by
    intro e he
    obtain he | he := List.mem_append.1 he
    · exact h.sound e he
    · rwa [List.mem_singleton.1 he]
  deliveredSound := h.deliveredSound

theorem resetEdge (h : s.Inv) : s.resetEdge.Inv where
  depth := Nat.zero_le _
  ordered := .nil
  past := nofun
  sound := nofun
  deliveredSound := h.deliveredSound

end State.Inv

theorem afterDelivery_queue_length_le (s : State) : s.afterDelivery.queue.length ≤ s.queue.length := by
  obtain h | ⟨e, q, hq, h⟩ := afterDelivery_eq s <;> simp [*]

/-! ### What passes through the queue -/

/-- From `s` to `t` the entries `gone` left the queue at its old end for the requester and `joined` came in at its young
end (R29, R32). -/
structure Flow (s t : State) (gone joined : List Entry) : Prop where
  delivered : t.delivered = s.delivered ++ gone.map Entry.response
  queue : s.queue ++ joined = gone ++ t.queue

namespace Flow

variable {s t u : State} {gone joined gone' joined' : List Entry}

theorem refl (s : State) : Flow s s [] [] := ⟨by simp, by simp⟩

theorem trans (h : Flow s u gone joined) (h' : Flow u t gone' joined') :
    Flow s t (gone ++ gone') (joined ++ joined') where
  delivered := by rw [h'.delivered, h.delivered, List.map_append, List.append_assoc]
  queue := by rw [← List.append_assoc, h.queue, List.append_assoc, h'.queue, List.append_assoc]

theorem delivered_length (h : Flow s t gone joined) : t.delivered.length = s.delivered.length + gone.length := by
  simp [h.delivered]

theorem queue_length (h : Flow s t gone joined) :
    s.queue.length + joined.length = gone.length + t.queue.length := by
  simpa using congrArg List.length h.queue

/-- Nothing is lost, doubled or reordered: delivered and in flight together only grow, by what joined. -/
theorem conserved (h : Flow s t gone joined) :
    t.delivered ++ t.responses = s.delivered ++ s.responses ++ joined.map Entry.response := by
  rw [h.delivered, List.append_assoc, List.append_assoc, State.responses, State.responses, ← List.map_append,
    ← List.map_append, h.queue]

end Flow

/-! ### The flow of one edge -/

/-- The entry the coming edge hands over, if it hands one over (R35). -/
def State.leaving (s : State) : List Entry := if s.delivering then s.queue.take 1 else []

/-- The entry the coming edge lets in, if it lets one in (R34). -/
def State.joining (s : State) : List Entry :=
  if s.accepting then [⟨answerOf s.pins.request, s.cycle⟩] else []

theorem joining_responses (s : State) : s.joining.map Entry.response = s.acceptedNow.map answerOf := by
  unfold State.joining State.acceptedNow
  split <;> rfl

/-- A delivering edge finds an entry to hand over. -/
theorem leaving_of_delivering {s : State} (hr : s.resetSeen = true) (hd : s.delivering = true) :
    s.leaving.length = 1 := by
  obtain ⟨-, -, e, q, hq, -⟩ := (delivering_iff hr).1 hd
  simp [State.leaving, hd, hq]

theorem afterDelivery_flow {s : State} (hr : s.resetSeen = true) : Flow s s.afterDelivery s.leaving [] := by
  obtain ⟨hd, e, q, hq, -, hs⟩ | ⟨hd, hs⟩ := afterDelivery_cases hr
  · rw [hs]
    exact ⟨by simp [State.leaving, hd, hq], by simp [State.leaving, hd, hq]⟩
  · rw [hs]
    exact ⟨by simp [State.leaving, hd], by simp [State.leaving, hd]⟩

/-- An edge without reset of a step that answers: the BFU had been reset, the requester kept its duty, and what leaves
and joins is what the handshakes say. -/
theorem step_flow {s t : State} (h0 : s.pins.rst = false) (h : step s = .next t) :
    s.resetSeen = true ∧ s.requestStable = true ∧ Flow s t s.leaving s.joining := by
  obtain ⟨h1, -⟩ | ⟨-, hr, hs, hcase⟩ := step_cases h
  · simp [h0] at h1
  · refine ⟨hr, hs, ?_⟩
    obtain ⟨hdelivered, hqueue⟩ := afterDelivery_flow hr
    obtain ⟨ha, rfl⟩ | ⟨ha, rfl⟩ := hcase
    · exact ⟨hdelivered, by
        simp only [State.joining, ha, if_true, State.nextCycle_queue, State.answer_queue, afterDelivery_cycle,
          ← List.append_assoc, ← hqueue, List.append_nil]
        rfl⟩
    · exact ⟨hdelivered, by simpa [State.joining, ha] using hqueue⟩

theorem step_cycle {s t : State} (h : step s = .next t) : t.cycle = s.cycle + 1 := by
  obtain ⟨-, rfl⟩ | ⟨-, -, -, ⟨-, rfl⟩ | ⟨-, rfl⟩⟩ := step_cases h <;> simp

/-! ### Runs without reset -/

theorem noResetDuring_head {n : Nat} {s : State} (h : NoResetDuring (n + 1) s) : s.pins.rst = false :=
  h 0 (Nat.succ_pos n) s (runsTo_zero.2 rfl)

/-- A run without reset goes on without reset from each state it passes. -/
theorem noResetDuring_rest {m n : Nat} {s u : State} (h : NoResetDuring (m + n) s) (hu : RunsTo m s u) :
    NoResetDuring n u :=
  fun k hk t ht => h (m + k) (Nat.add_lt_add_left hk m) t (runsTo_add.2 ⟨u, hu, ht⟩)

theorem noResetDuring_mono {m n : Nat} {s : State} (h : NoResetDuring n s) (hmn : m ≤ n) : NoResetDuring m s :=
  fun k hk t ht => h k (Nat.lt_of_lt_of_le hk hmn) t ht

theorem runsTo_one {s u : State} : RunsTo 1 s u ↔ step s = .next u := by
  simp [runsTo_succ, runsTo_zero]

theorem noResetDuring_tail {n : Nat} {s u : State} (h : NoResetDuring (n + 1) s) (hu : step s = .next u) :
    NoResetDuring n u :=
  noResetDuring_rest (Nat.add_comm n 1 ▸ h) (runsTo_one.2 hu)

theorem acceptedDuring_succ {n : Nat} {s u : State} (h : step s = .next u) :
    acceptedDuring (n + 1) s = s.acceptedNow ++ acceptedDuring n u := by
  simp [acceptedDuring, h]

/-- Along a run without reset the flows of its edges join up: what came in are the responses to what was accepted. -/
theorem run_flow {n : Nat} {s t : State} (h0 : NoResetDuring n s) (h : RunsTo n s t) :
    ∃ gone joined, Flow s t gone joined ∧ joined.map Entry.response = (acceptedDuring n s).map answerOf := by
  induction n generalizing s with
  | zero =>
    obtain rfl := runsTo_zero.1 h
    exact ⟨[], [], .refl s, rfl⟩
  | succ n ih =>
    obtain ⟨u, hu, ht⟩ := runsTo_succ.1 h
    obtain ⟨-, -, hfirst⟩ := step_flow (noResetDuring_head h0) hu
    obtain ⟨gone, joined, hrest, hresp⟩ := ih (noResetDuring_tail h0 hu) ht
    exact ⟨_, _, hfirst.trans hrest, by
      rw [acceptedDuring_succ hu, List.map_append, List.map_append, joining_responses, hresp]⟩

theorem run_cycle {n : Nat} {s t : State} (h : RunsTo n s t) : t.cycle = s.cycle + n := by
  induction n generalizing s with
  | zero => rw [runsTo_zero.1 h, Nat.add_zero]
  | succ n ih =>
    obtain ⟨u, hu, ht⟩ := runsTo_succ.1 h
    rw [ih ht, step_cycle hu, Nat.add_right_comm, Nat.add_assoc]

/-! ### The actions of an edge (R33) -/

theorem runActions_append {depth : Nat} {xs ys : List Action} {q q' q'' out out' : List Response}
    (hx : runActions depth xs q = some (q', out)) (hy : runActions depth ys q' = some (q'', out')) :
    runActions depth (xs ++ ys) q = some (q'', out ++ out') := by
  induction xs generalizing q out with
  | nil =>
    obtain ⟨rfl, rfl⟩ : q = q' ∧ [] = out := by simpa [runActions] using hx
    exact hy
  | cons x xs ih =>
    cases hq : x.apply depth q with
    | none => simp [runActions, hq] at hx
    | some p =>
      cases hp : runActions depth xs p.1 with
      | none => simp [runActions, hq, hp] at hx
      | some p' =>
        obtain ⟨rfl, rfl⟩ : p'.1 = q' ∧ p.2 ++ p'.2 = out := by simpa [runActions, hq, hp] using hx
        simp [runActions, hq, ih hp]

/-- The acceptance of an edge is enabled at the queue its guard reads. -/
theorem runActions_accept {s : State} (hr : s.resetSeen = true) :
    runActions Config.maxInflight (if s.accepting then [.accept s.pins.request] else []) s.responses =
      some (s.responses ++ s.acceptedNow.map answerOf, []) := by
  cases ha : s.accepting with
  | true =>
    obtain ⟨-, -, hlt⟩ := (accepting_iff hr).1 ha
    have hroom : hasRoom s.responses Config.maxInflight = true := hasRoom_iff.2 (by simpa [State.responses] using hlt)
    simp [runActions, Action.apply, hroom, State.acceptedNow, ha, answerOf]
  | false => simp [runActions, State.acceptedNow, ha]

/-- The delivery of an edge is enabled at every queue that begins with what the edge hands over. -/
theorem runActions_deliver {s : State} (hr : s.resetSeen = true) (depth : Nat) (q : List Response) :
    runActions depth (if s.delivering then [.deliver] else []) (s.leaving.map Entry.response ++ q) =
      some (q, s.leaving.map Entry.response) := by
  cases hd : s.delivering with
  | true =>
    obtain ⟨e, he⟩ := List.length_eq_one_iff.1 (leaving_of_delivering hr hd)
    simp [runActions, Action.apply, he]
  | false => simp [runActions, State.leaving, hd]

/-! ### The obligations -/

/-- Settles O37: the delivery, the acceptance at a queue with room, the reset and the end of the cycle each keep the
invariant. -/
theorem invariantKeptByEveryEdge : Obligations.InvariantKeptByEveryEdge := by
  intro s t hinv hstep
  obtain ⟨-, rfl⟩ | ⟨-, hr, -, ⟨ha, rfl⟩ | ⟨-, rfl⟩⟩ := step_cases hstep
  · exact hinv.resetEdge
  · obtain ⟨-, -, hroom⟩ := (accepting_iff hr).1 ha
    exact hinv.afterDelivery.answer_nextCycle (Nat.lt_of_le_of_lt (afterDelivery_queue_length_le s) hroom)
      (execute_sound _ _ _) true
  · exact hinv.afterDelivery.nextCycle false

/-- Settles O38: nothing is in flight and nothing has been delivered. -/
theorem invariantHasResetState : Obligations.InvariantHasResetState where
  depth := Nat.zero_le _
  ordered := .nil
  past := nofun
  sound := nofun
  deliveredSound := nofun

/-- Settles O39: the flow of the run conserves responses, and what joined are the answers to the accepted commands. -/
theorem oneResponseEachInAcceptanceOrder : Obligations.OneResponseEachInAcceptanceOrder := by
  intro n s t h0 hrun
  obtain ⟨gone, joined, hflow, hresp⟩ := run_flow h0 hrun
  rw [hflow.conserved, hresp]

/-- Settles O41: an edge without reset accepts at the length its guard saw and then takes the oldest entry, which gives
the queue that the edge's own order gives. -/
theorem edgeRefinesTransactions : Obligations.EdgeRefinesTransactions := by
  intro s t hstep
  cases h0 : s.pins.rst with
  | true =>
    obtain rfl : s.resetEdge = t := by simpa [step_reset h0] using hstep
    exact ⟨[], by simp [State.edgeActions, h0, runActions, Action.apply, State.responses], by simp⟩
  | false =>
    obtain ⟨hr, -, hdelivered, hqueue⟩ := step_flow h0 hstep
    have hqueue : s.responses ++ s.acceptedNow.map answerOf = s.leaving.map Entry.response ++ t.responses := by
      rw [← joining_responses, State.responses, State.responses, ← List.map_append, hqueue, List.map_append]
    refine ⟨s.leaving.map Entry.response, ?_, hdelivered⟩
    have haccept := runActions_accept hr
    rw [hqueue] at haccept
    simpa [State.edgeActions, h0] using runActions_append haccept (runActions_deliver hr Config.maxInflight t.responses)

end Sys2Proof.Machine
end

section
/-! PROOFS. Progress of a run without reset whose requester takes responses (spec 70_reset_and_hazards.md section 4),
and the obligations O42 and O43 assembled from it. -/

namespace Sys2Proof.Machine

/-! ### Windows of a run -/

theorem takesWithin_rest {K m n : Nat} {s u : State} (h : TakesWithin K (m + n) s) (hu : RunsTo m s u) :
    TakesWithin K n u := by
  intro k hk
  obtain ⟨j, hj, hjK, hy⟩ := h (m + k) (by omega)
  exact ⟨j - m, by omega, by omega, fun t ht =>
    hy t (by rw [show j = m + (j - m) by omega]; exact runsTo_add.2 ⟨u, hu, ht⟩)⟩

theorem takesWithin_mono {K m n : Nat} {s : State} (h : TakesWithin K n s) (hmn : m ≤ n) : TakesWithin K m s :=
  fun k hk => h k (Nat.le_trans hk hmn)

/-! ### What is old in the queue leaves it -/

/-- Either all of the queue's old end has left, or what is left of it stands at the front of the queue. -/
theorem Flow.old_cases {s t : State} {gone joined old rest : List Entry} (h : Flow s t gone joined)
    (hq : s.queue = old ++ rest) :
    old.length ≤ gone.length ∨ ∃ e left, old = gone ++ e :: left ∧ t.queue = e :: left ++ (rest ++ joined) := by
  have hqueue : old ++ (rest ++ joined) = gone ++ t.queue := by rw [← List.append_assoc, ← hq, h.queue]
  obtain ⟨x, rfl, -⟩ | ⟨x, rfl, ht⟩ := List.append_eq_append_iff.1 hqueue
  · exact .inl (by simp)
  · cases x with
    | nil => exact .inl (by simp)
    | cons e left => exact .inr ⟨e, left, rfl, ht⟩

/-- A ready response that the requester takes is handed over. -/
theorem leaving_of_ready {s t : State} {e : Entry} {q : List Entry} (h0 : s.pins.rst = false)
    (hstep : step s = .next t) (hy : s.pins.rspReady = true) (hq : s.queue = e :: q)
    (he : e.readyAt s.cycle = true) : s.leaving.length = 1 := by
  obtain ⟨hr, -, -⟩ := step_flow h0 hstep
  exact leaving_of_delivering hr ((delivering_iff hr).2 ⟨h0, hy, e, q, hq, he⟩)

theorem run_delivered_le {n : Nat} {s t : State} (h0 : NoResetDuring n s) (h : RunsTo n s t) :
    s.delivered.length ≤ t.delivered.length := by
  obtain ⟨gone, joined, hflow, -⟩ := run_flow h0 h
  exact hflow.delivered_length ▸ Nat.le_add_right _ _

/-- With the oldest response ready, a window of `K` cycles delivers at least one. -/
theorem ready_head_delivered {K : Nat} {s t : State} {e : Entry} {q : List Entry} (h0 : NoResetDuring K s)
    (hy : TakesWithin K K s) (hrun : RunsTo K s t) (hq : s.queue = e :: q) (he : e.readyAt s.cycle = true) :
    s.delivered.length < t.delivered.length := by
  obtain ⟨j, -, hjK, hready⟩ := hy 0 (Nat.le_of_eq (Nat.zero_add K))
  obtain ⟨m, rfl⟩ : ∃ m, K = j + (m + 1) := ⟨K - j - 1, by omega⟩
  obtain ⟨u, hu, hut⟩ := runsTo_add.1 hrun
  obtain ⟨v, hv, hvt⟩ := runsTo_succ.1 hut
  have h0u : NoResetDuring (m + 1) u := noResetDuring_rest h0 hu
  obtain ⟨gone, joined, hflow, -⟩ := run_flow (noResetDuring_mono h0 (Nat.le_add_right j _)) hu
  have hlater := run_delivered_le (noResetDuring_tail h0u hv) hvt
  obtain ⟨-, -, hedge⟩ := step_flow (noResetDuring_head h0u) hv
  have hcount := hflow.delivered_length
  have hcount' := hedge.delivered_length
  obtain hgone | ⟨e', left, hold, huq⟩ := hflow.old_cases (old := [e]) hq
  · simp at hgone
    omega
  · obtain ⟨rfl, rfl, rfl⟩ : gone = [] ∧ e' = e ∧ left = [] := by
      cases gone <;> simp_all
    have hleft := leaving_of_ready (noResetDuring_head h0u) hv (hready u hu) huq
      (readyAt_mono he (by rw [run_cycle hu]; exact Nat.le_add_right _ _))
    omega

/-- Ready responses at the old end of the queue are all delivered within a window of `K` cycles each. -/
theorem ready_old_delivered {K n : Nat} {s t : State} {old rest : List Entry} (h0 : NoResetDuring n s)
    (hy : TakesWithin K n s) (hrun : RunsTo n s t) (hn : K * old.length ≤ n) (hq : s.queue = old ++ rest)
    (hready : ∀ e ∈ old, e.readyAt s.cycle = true) : s.delivered.length + old.length ≤ t.delivered.length := by
  induction hlen : old.length using Nat.strong_induction_on generalizing n s old rest with
  | _ len ih =>
    subst hlen
    cases old with
    | nil => exact run_delivered_le h0 hrun
    | cons e left =>
      rw [List.length_cons, Nat.mul_succ] at hn
      obtain ⟨m, rfl⟩ : ∃ m, n = K + m := ⟨n - K, by omega⟩
      obtain ⟨u, hu, hut⟩ := runsTo_add.1 hrun
      have h0u : NoResetDuring m u := noResetDuring_rest h0 hu
      have h0K := noResetDuring_mono h0 (Nat.le_add_right K m)
      have hfirst := ready_head_delivered h0K (takesWithin_mono hy (Nat.le_add_right K m)) hu hq
        (hready e List.mem_cons_self)
      obtain ⟨gone, joined, hflow, -⟩ := run_flow h0K hu
      have hcount := hflow.delivered_length
      obtain hgone | ⟨e', left', hold, huq⟩ := hflow.old_cases hq
      · have := run_delivered_le h0u hut
        omega
      · have hsplit : left.length + 1 = gone.length + (e' :: left').length := by
          simpa using congrArg List.length hold
        have hbound : K * (e' :: left').length ≤ K * left.length := Nat.mul_le_mul_left K (by omega)
        have hreadyu : ∀ x ∈ e' :: left', x.readyAt u.cycle = true := fun x hx =>
          readyAt_mono (hready x (hold ▸ List.mem_append_right gone hx)) (run_cycle hu ▸ Nat.le_add_right _ _)
        have htotal : (e :: left).length = left.length + 1 := List.length_cons
        have hshorter : (e' :: left').length < (e :: left).length := by omega
        have := ih _ hshorter h0u (takesWithin_rest hy hu) hut (by omega) huq hreadyu rfl
        omega

/-- From a state with the invariant, the old end of the queue is ready after `RSP_LATENCY` cycles and is delivered in a
window of `K` cycles more for each of its entries (R122, R124). -/
theorem old_delivered {K : Nat} {s t : State} {old rest : List Entry} (hinv : s.Inv) (hq : s.queue = old ++ rest)
    (h0 : NoResetDuring (Config.rspLatency + K * old.length) s)
    (hy : TakesWithin K (Config.rspLatency + K * old.length) s)
    (hrun : RunsTo (Config.rspLatency + K * old.length) s t) :
    s.delivered.length + old.length ≤ t.delivered.length := by
  obtain ⟨u, hu, hut⟩ := runsTo_add.1 hrun
  have h0u := noResetDuring_rest h0 hu
  obtain ⟨gone, joined, hflow, -⟩ := run_flow (noResetDuring_mono h0 (Nat.le_add_right _ _)) hu
  have hcount := hflow.delivered_length
  obtain hgone | ⟨e, left, hold, huq⟩ := hflow.old_cases hq
  · have := run_delivered_le h0u hut
    omega
  · have hsplit : old.length = gone.length + (e :: left).length := by
      simpa using congrArg List.length hold
    have hready : ∀ x ∈ e :: left, x.readyAt u.cycle = true := by
      intro x hx
      have hpast := hinv.past x (hq ▸ List.mem_append_left rest (hold ▸ List.mem_append_right gone hx))
      exact readyAt_of_latency (by rw [run_cycle hu]; omega)
    have hbound : K * (e :: left).length ≤ K * old.length := Nat.mul_le_mul_left K (by omega)
    have := ready_old_delivered h0u (takesWithin_rest hy hu) hut hbound huq hready
    omega

/-! ### An offer stays until it is accepted (R25) -/

theorem acceptedDuring_add {m n : Nat} {s u : State} (h : RunsTo m s u) :
    acceptedDuring (m + n) s = acceptedDuring m s ++ acceptedDuring n u := by
  induction m generalizing s with
  | zero => rw [runsTo_zero.1 h, Nat.zero_add]; rfl
  | succ m ih =>
    obtain ⟨v, hv, hu⟩ := runsTo_succ.1 h
    rw [Nat.add_right_comm, acceptedDuring_succ hv, acceptedDuring_succ hv, ih hu, List.append_assoc]

/-- An offer that an edge without reset does not accept is the request to be held after it. -/
theorem step_pending_of_not_accepting {s t : State} (h0 : s.pins.rst = false) (hstep : step s = .next t)
    (hv : s.pins.reqValid = true) (ha : s.accepting = false) : t.pending = some s.pins.request := by
  obtain ⟨h1, -⟩ | ⟨-, -, -, ⟨ha', -⟩ | ⟨-, rfl⟩⟩ := step_cases hstep
  · simp [h0] at h1
  · simp [ha] at ha'
  · simp [State.heldRequest, hv]

/-- Up to the last edge of a run without reset, an offer has been accepted first, or is still there and nothing has been
accepted. -/
theorem offer_accepted_or_held {n : Nat} {s t u : State} (hv : s.pins.reqValid = true)
    (h0 : NoResetDuring (n + 1) s) (hu : RunsTo n s u) (hstep : step u = .next t) :
    (∃ rs, acceptedDuring n s = s.pins.request :: rs) ∨
    (acceptedDuring n s = [] ∧ u.pins.reqValid = true ∧ u.pins.request = s.pins.request) := by
  induction n generalizing s with
  | zero =>
    obtain rfl := runsTo_zero.1 hu
    exact .inr ⟨rfl, hv, rfl⟩
  | succ n ih =>
    obtain ⟨v, hsv, hvu⟩ := runsTo_succ.1 hu
    rw [acceptedDuring_succ hsv]
    cases ha : s.accepting with
    | true => exact .inl ⟨acceptedDuring n v, by simp [State.acceptedNow, ha]⟩
    | false =>
      have h0v : NoResetDuring (n + 1) v := noResetDuring_tail h0 hsv
      obtain ⟨w, hw, -⟩ := runsTo_succ.1 (runsTo_add.2 ⟨u, hvu, runsTo_one.2 hstep⟩)
      obtain ⟨-, hstable, -⟩ := step_flow (noResetDuring_head h0v) hw
      have hpending := step_pending_of_not_accepting (noResetDuring_head h0) hsv hv ha
      obtain ⟨hvv, hreq⟩ := requestStable_iff.1 hstable _ hpending
      simpa [State.acceptedNow, ha, hreq] using ih hvv h0v hvu

/-! ### The obligations -/

/-- Settles O42: as many are delivered as were in flight, and what has been delivered and the responses asked for both
begin the conserved sequence of the run. -/
theorem everyResponseDeliveredInBoundedTime : Obligations.EveryResponseDeliveredInBoundedTime := by
  intro K s t hinv h0 hy hrun
  obtain ⟨gone, joined, hflow, -⟩ := run_flow h0 hrun
  have hcount := old_delivered hinv (List.append_nil s.queue).symm h0 hy hrun
  have hdelivered : t.delivered <+: t.delivered ++ t.responses := List.prefix_append _ _
  have hstart : s.delivered ++ s.responses <+: t.delivered ++ t.responses := hflow.conserved ▸ List.prefix_append _ _
  exact List.prefix_of_prefix_length_le hstart hdelivered (by simpa [State.responses] using hcount)

/-- Settles O43: with nothing accepted before it, the last edge finds the offer still there, and a place free: there was
one at the start, or the oldest response has been delivered. -/
theorem everyOfferAcceptedInBoundedTime : Obligations.EveryOfferAcceptedInBoundedTime := by
  intro K s t hinv hv h0 hy hrun
  obtain ⟨u, hu, hlast⟩ := runsTo_add.1 hrun
  have hstep : step u = .next t := runsTo_one.1 hlast
  have h0u : u.pins.rst = false := noResetDuring_head (noResetDuring_rest h0 hu)
  have h0' := noResetDuring_mono h0 (Nat.le_add_right (Config.rspLatency + K) 1)
  rw [acceptedDuring_add hu, acceptedDuring_succ hstep]
  obtain ⟨rs, haccepted⟩ | ⟨hnone, hvu, hreq⟩ := offer_accepted_or_held hv h0 hu hstep
  · exact ⟨_, by rw [haccepted, List.cons_append]⟩
  · obtain ⟨gone, joined, hflow, hresp⟩ := run_flow h0' hu
    obtain rfl : joined = [] := by simpa [hnone] using hresp
    have hlength := hflow.queue_length
    have hroom : u.queue.length < Config.maxInflight := by
      cases hq : s.queue with
      | nil =>
        have := one_le_maxInflight
        simp [hq] at hlength
        omega
      | cons e q =>
        have hy' := takesWithin_mono hy (Nat.le_add_right (Config.rspLatency + K) 1)
        have hcount := old_delivered (K := K) (old := [e]) hinv hq (by simpa using h0') (by simpa using hy')
          (by simpa using hu)
        have := hflow.delivered_length
        have := hinv.depth
        simp at hcount hlength
        omega
    obtain ⟨hr, -, -⟩ := step_flow h0u hstep
    have ha : u.accepting = true := (accepting_iff hr).2 ⟨h0u, hvu, hroom⟩
    exact ⟨acceptedDuring 0 t, by simp [hnone, State.acceptedNow, ha, hreq]⟩

end Sys2Proof.Machine
end

section
/-! PROOFS. The command word against its fields, both ways (spec 30_encoding.md), and the obligations O1, O2, O3, O4 and
O5 assembled from it. -/

namespace Sys2Proof

/-! ### A word whose reserved bits are 0 is its fields packed (R59, R64) -/

/-- A bit under a mask that leaves 0 is 0. -/
theorem getLsbD_of_and_eq_zero {cmd m : Cmd} {i : Nat} (h : cmd &&& m = 0#32) (hm : m.getLsbD i = true) :
    cmd.getLsbD i = false := by
  simpa [hm] using congrArg (BitVec.getLsbD · i) h

/-- A mask that leaves 0 leaves 0 with fewer bits. -/
theorem and_eq_zero_of_subset {cmd m m' : Cmd} (h : cmd &&& m = 0#32) (hm : m &&& m' = m') : cmd &&& m' = 0#32 := by
  rw [← hm, ← BitVec.and_assoc, h, BitVec.zero_and]

/-- Outside BFEXT's reserved bits every bit of a word lies in OP, BE, POS or LEN. -/
theorem packCmd_fields {cmd : Cmd} (h : cmd &&& 0xFF8080E0#32 = 0#32) :
    packCmd (cmdOp cmd) (cmdBe cmd) (cmdPos cmd) (cmdLen cmd) = cmd := by
  refine BitVec.eq_of_getLsbD_eq fun i hi => ?_
  have hreserved : (0xFF8080E0#32).getLsbD i = true → cmd.getLsbD i = false := getLsbD_of_and_eq_zero h
  rw [getLsbD_packCmd, cmdOp, cmdPos, cmdLen, cmdBe, testBit_slice, testBit_slice, testBit_slice]
  interval_cases i <;> simp_all

theorem cmdBe_of_bfinsMask {cmd : Cmd} (h : cmd &&& 0xFF8080F0#32 = 0#32) : cmdBe cmd = false :=
  getLsbD_of_and_eq_zero h (by decide)

theorem cmdLen_of_nthbyteMask {cmd : Cmd} (h : cmd &&& 0xFFFF80F0#32 = 0#32) : cmdLen cmd = 0 := by
  refine Nat.eq_of_testBit_eq fun j => ?_
  rw [cmdLen, testBit_slice, Nat.zero_testBit]
  by_cases hj : j < 7
  · have hbit : (0xFFFF80F0#32).getLsbD (16 + j) = true := by interval_cases j <;> decide
    rw [getLsbD_of_and_eq_zero h hbit, Bool.and_false]
  · simp [hj]

theorem cmdPos_le (cmd : Cmd) : cmdPos cmd ≤ 127 := Nat.le_of_lt_succ (BitVec.isLt _)

theorem cmdLen_le (cmd : Cmd) : cmdLen cmd ≤ 127 := Nat.le_of_lt_succ (BitVec.isLt _)

/-! ### The value of a packed word (R75) -/

/-- The fields do not overlap, so the OR of the shifted fields is the sum of their weights. -/
theorem toNat_packCmd {op pos len : Nat} (be : Bool) (ho : op < 2 ^ 4) (hp : pos ≤ 127) (hl : len ≤ 127) :
    (packCmd op be pos len).toNat = op + 16 * be.toNat + 256 * pos + 65536 * len := by
  have hbe : be.toNat ≤ 1 := Bool.toNat_le be
  have hlow : 2 ^ 4 * be.toNat + op < 2 ^ 8 := by omega
  have hmid : 2 ^ 8 * pos + (2 ^ 4 * be.toNat + op) < 2 ^ 16 := by omega
  have hsum : op + 16 * be.toNat + 256 * pos + 65536 * len =
      2 ^ 16 * len + (2 ^ 8 * pos + (2 ^ 4 * be.toNat + op)) := by omega
  refine Nat.eq_of_testBit_eq fun i => ?_
  rw [hsum, Nat.testBit_two_pow_mul_add _ hmid, Nat.testBit_two_pow_mul_add _ hlow, Nat.testBit_two_pow_mul_add _ ho,
    BitVec.testBit_toNat, getLsbD_packCmd]
  obtain h | rfl | ⟨h, h'⟩ | ⟨h, h'⟩ | h : i < 4 ∨ i = 4 ∨ (4 < i ∧ i < 8) ∨ (8 ≤ i ∧ i < 16) ∨ 16 ≤ i := by omega
  · simp [show i < 32 by omega, show i < 8 by omega, show i < 16 by omega, h, show i ≠ 4 by omega,
      show ¬ 8 ≤ i by omega, show ¬ 16 ≤ i by omega]
  · cases be <;> simp [testBit_of_lt ho]
  · simp [show i < 32 by omega, show i < 16 by omega, h', Nat.not_lt.2 h.le, h.ne',
      testBit_of_lt ho h.le, testBit_of_lt (m := 1) (n := be.toNat) (by omega) (show 1 ≤ i - 4 by omega)]
  · simp [show i < 32 by omega, h, h', Nat.not_lt.2 h, show i ≠ 4 by omega, testBit_of_lt ho (show 4 ≤ i by omega)]
  · have hpos : pos.testBit (i - 8) = false := testBit_of_lt (m := 7) (by omega) (by omega)
    have hlen : 32 ≤ i → len.testBit (i - 16) = false := fun _ => testBit_of_lt (m := 7) (by omega) (by omega)
    simpa [h, Nat.not_lt.2 h, show i ≠ 4 by omega, testBit_of_lt ho (show 4 ≤ i by omega), hpos] using fun hb =>
      Nat.lt_of_not_le fun hi => by simp [hlen hi] at hb

/-! ### The rows of the opcode map (R69) -/

theorem bfextRow_iff {cmd : Cmd} :
    cmd &&& 0xFF8080EF#32 = 0x00000000#32 ↔ cmdOp cmd = 0 ∧ cmd &&& 0xFF8080E0#32 = 0#32 := by
  rw [cmdOp_eq_iff (by decide), ← and_or_eq_iff (by decide) (by decide)]
  rfl

theorem bfinsRow_iff {cmd : Cmd} :
    cmd &&& 0xFF8080FF#32 = 0x00000001#32 ↔ cmdOp cmd = 1 ∧ cmd &&& 0xFF8080F0#32 = 0#32 := by
  rw [cmdOp_eq_iff (by decide), ← and_or_eq_iff (by decide) (by decide)]
  rfl

theorem nthbyteRow_iff {cmd : Cmd} :
    cmd &&& 0xFFFF80FF#32 = 0x00000002#32 ↔ cmdOp cmd = 2 ∧ cmd &&& 0xFFFF80F0#32 = 0#32 := by
  rw [cmdOp_eq_iff (by decide), ← and_or_eq_iff (by decide) (by decide)]
  rfl

theorem decode_bfext_iff {cmd : Cmd} : decode cmd = .ok (.bfext (cmdBe cmd) (cmdPos cmd) (cmdLen cmd)) ↔
    cmdOp cmd = 0 ∧ cmd &&& 0xFF8080E0#32 = 0#32 := by
  obtain ⟨hop, hm, -, hd⟩ | ⟨hop, -, -, hd⟩ | ⟨hop, -, -, hd⟩ | ⟨⟨e, hd⟩, -, hm, -⟩ := decode_cases cmd
  · simp [hop, hm, hd]
  · simp [hop, hd]
  · simp [hop, hd]
  · simpa [hd] using hm

theorem decode_bfins_iff {cmd : Cmd} : decode cmd = .ok (.bfins (cmdPos cmd) (cmdLen cmd)) ↔
    cmdOp cmd = 1 ∧ cmd &&& 0xFF8080F0#32 = 0#32 := by
  obtain ⟨hop, -, -, hd⟩ | ⟨hop, hm, -, hd⟩ | ⟨hop, -, -, hd⟩ | ⟨⟨e, hd⟩, -, -, hm, -⟩ := decode_cases cmd
  · simp [hop, hd]
  · simp [hop, hm, hd]
  · simp [hop, hd]
  · simpa [hd] using hm

theorem decode_nthbyte_iff {cmd : Cmd} : decode cmd = .ok (.nthbyte (cmdPos cmd)) ↔
    cmdOp cmd = 2 ∧ cmd &&& 0xFFFF80F0#32 = 0#32 := by
  obtain ⟨hop, -, -, hd⟩ | ⟨hop, -, -, hd⟩ | ⟨hop, hm, -, hd⟩ | ⟨⟨e, hd⟩, -, -, -, hm⟩ := decode_cases cmd
  · simp [hop, hd]
  · simp [hop, hd]
  · simp [hop, hm, hd]
  · simpa [hd] using hm

/-- A word that the decoder refuses has no row. -/
theorem noRow_of_decode_error {cmd : Cmd} {e : DecodeError} (h : decode cmd = .error e) :
    ∀ row ∈ opcodeRows, row.selects cmd = false := by
  rw [noRow_iff, ← decode_bfext_iff, ← decode_bfins_iff, ← decode_nthbyte_iff]
  simp [h]

/-- A selected row's match bits are the word's OP: they lie in OP's place and the mask covers it. -/
theorem matchBits_of_selects {cmd : Cmd} {row : OpcodeRow} (hmem : row ∈ opcodeRows) (h : row.selects cmd = true) :
    row.matchBits = cmd &&& 0xF#32 := by
  have hplace : ∀ r ∈ opcodeRows, r.matchBits &&& 0xF#32 = r.matchBits ∧ r.mask &&& 0xF#32 = 0xF#32 := by decide
  obtain ⟨hmatch, hmask⟩ := hplace row hmem
  have hsel : cmd &&& row.mask = row.matchBits := beq_iff_eq.1 h
  rw [← hmatch, ← hsel, BitVec.and_assoc, hmask]

theorem decode_of_encode_eq {i : Instr} {cmd : Cmd} (hi : i.WellFormed) (h : encode i = cmd) : decode cmd = .ok i :=
  h ▸ decode_encode hi

end Sys2Proof

namespace Sys2Proof.Machine

/-! ### The obligations -/

/-- Settles O1: the word is accepted under its own OP and its fields read back. -/
theorem decodeOfEncodeIsIdentity : Obligations.DecodeOfEncodeIsIdentity := fun _ hi => decode_encode hi

/-- Settles O2: a word that decodes has its operation's reserved bits 0, so it is its fields packed, where the fields the
operation lacks are 0 too. -/
theorem encodeOfDecodeIsIdentity : Obligations.EncodeOfDecodeIsIdentity := by
  intro cmd i hdec
  have hp := cmdPos_le cmd
  have hl := cmdLen_le cmd
  obtain ⟨hop, hm, -, hd⟩ | ⟨hop, hm, -, hd⟩ | ⟨hop, hm, -, hd⟩ | ⟨⟨e, hd⟩, -⟩ := decode_cases cmd <;>
    rw [hd] at hdec <;> cases hdec
  · exact ⟨wellFormed_bfext.2 ⟨hp, hl⟩, by simpa only [encode, hop] using packCmd_fields hm⟩
  · have hword := packCmd_fields (and_eq_zero_of_subset hm (by decide))
    exact ⟨wellFormed_bfins.2 ⟨hp, hl⟩, by simpa only [encode, hop, cmdBe_of_bfinsMask hm] using hword⟩
  · have hword := packCmd_fields (and_eq_zero_of_subset hm (by decide))
    have hbe := cmdBe_of_bfinsMask (and_eq_zero_of_subset hm (by decide))
    exact ⟨wellFormed_nthbyte.2 hp, by simpa only [encode, hop, hbe, cmdLen_of_nthbyteMask hm] using hword⟩

/-- Settles O3: each operation's word is `packCmd`, whose value is the weighted sum. -/
theorem encodingFunctionAndExamples : Obligations.EncodingFunctionAndExamples := by
  refine ⟨fun be pos len hp hl => ?bfext, fun pos len hp hl => ?bfins, fun n hn => ?nthbyte, by decide⟩
  case bfext => exact toNat_packCmd be (by decide) hp hl
  case bfins => exact toNat_packCmd false (by decide) hp hl
  case nthbyte => exact toNat_packCmd false (by decide) hn (Nat.zero_le 127)

/-- Settles O4: each word is the encoder's, and decodes as such. -/
theorem tableWordsDecode : Obligations.TableWordsDecode :=
  ⟨decode_of_encode_eq (by decide) (by decide), decode_of_encode_eq (by decide) (by decide),
    decode_of_encode_eq (by decide) (by decide), decode_of_encode_eq (by decide) (by decide),
    decode_of_encode_eq (by decide) (by decide), decode_of_encode_eq (by decide) (by decide)⟩

/-- Settles O5: a row's comparison is OP and the reserved bits at once, which is what the decoder checks; two selected
rows have the word's OP as their match bits, and no two rows share those. -/
theorem decoderSelectsByMaskAndMatch : Obligations.DecoderSelectsByMaskAndMatch := by
  refine ⟨fun cmd => bfextRow_iff.trans decode_bfext_iff.symm, fun cmd => bfinsRow_iff.trans decode_bfins_iff.symm,
    fun cmd => nthbyteRow_iff.trans decode_nthbyte_iff.symm,
    fun cmd => ⟨decode_error_of_noRow, fun ⟨e, he⟩ => noRow_of_decode_error he⟩, by decide,
    fun cmd r hr r' hr' hsel hsel' => ?unique⟩
  case unique =>
    have hinj : ∀ x ∈ opcodeRows, ∀ y ∈ opcodeRows, x.matchBits = y.matchBits → x = y := by decide
    exact hinj r hr r' hr' ((matchBits_of_selects hr hsel).trans (matchBits_of_selects hr' hsel').symm)

end Sys2Proof.Machine
end

section
/-! PROOFS. The bits of the datapath's words and the laws of the three operations (spec 40_datapath.md,
41_bitfieldcodec.md, 42_byteaccessor.md), and the obligations O8, O10 to O15 and O17 to O21 assembled from them. -/

namespace Sys2Proof.Machine

/-! ### The byte swap (R82, R83) -/

/-- Bit `j` of byte place `k`, counted from the least significant, comes from the same bit of place `7 - k`. -/
theorem getLsbD_byteSwap64_place (w : Word) {k j : Nat} (hk : k < 8) (hj : j < 8) :
    (byteSwap64 w).getLsbD (8 * k + j) = w.getLsbD (8 * (7 - k) + j) := by
  rw [getLsbD_byteSwap64 w (by omega), show 56 - 8 * ((8 * k + j) / 8) + (8 * k + j) % 8 = 8 * (7 - k) + j by omega]

@[simp] theorem byteSwap64_byteSwap64 (w : Word) : byteSwap64 (byteSwap64 w) = w := by
  refine BitVec.eq_of_getLsbD_eq fun i hi => ?_
  have hback : 8 * (7 - (7 - i / 8)) + i % 8 = i := by omega
  rw [show i = 8 * (i / 8) + i % 8 by omega, getLsbD_byteSwap64_place _ (by omega) (by omega),
    getLsbD_byteSwap64_place _ (by omega) (by omega), hback, Nat.div_add_mod]

/-! ### Source bit numbers (R10) -/

theorem getMsbD_eq_getLsbD (w : Word) {p : Nat} (hp : p < 64) : w.getMsbD p = w.getLsbD (63 - p) := by
  simp [BitVec.getMsbD, hp]

section
variable {pos len : Nat} (hfit : pos + len ≤ 64)
include hfit

/-- The field's bits above the shift amount are its source bits, last one first (R10, R80). -/
theorem getLsbD_fieldShift_add (w : Word) {i : Nat} (hi : i < len) :
    w.getLsbD (fieldShift pos len + i) = w.getMsbD (pos + len - 1 - i) := by
  rw [getMsbD_eq_getLsbD w (by omega), fieldShift, show 64 - pos - len + i = 63 - (pos + len - 1 - i) by omega]

/-- The extracted word: the field's bits, right-justified, and 0 above them (R89). -/
theorem getLsbD_extract (w : Word) (i : Nat) :
    ((w >>> fieldShift pos len) &&& mask len).getLsbD i = (decide (i < len) && w.getMsbD (pos + len - 1 - i)) := by
  rw [BitVec.getLsbD_and, getLsbD_mask, BitVec.getLsbD_ushiftRight]
  by_cases hi : i < len
  · simp [hi, show i < 64 by omega, getLsbD_fieldShift_add hfit w hi]
  · simp [hi]

/-- The updated word by source bit numbers: the value's low bits inside the field, the buffer outside it (R91). -/
theorem getMsbD_insertField (a b : Word) {p : Nat} (hp : p < 64) :
    (insertField pos len a b).getMsbD p =
      if pos ≤ p ∧ p < pos + len then b.getLsbD (pos + len - 1 - p) else a.getMsbD p := by
  have hin : fieldShift pos len ≤ 63 - p ∧ 63 - p < fieldShift pos len + len ↔ pos ≤ p ∧ p < pos + len := by
    unfold fieldShift; omega
  have hindex : 63 - p - fieldShift pos len = pos + len - 1 - p := by unfold fieldShift; omega
  rw [getMsbD_eq_getLsbD _ hp, getLsbD_insertField a b hfit, getMsbD_eq_getLsbD a hp, if_congr hin rfl rfl, hindex]

end

/-! ### Insert, then extract or insert again (R92) -/

section
variable (pos len : Nat) (a b : Word)

/-- Outside the field the updated word is the buffer. -/
theorem insertField_frame :
    insertField pos len a b &&& ~~~(mask len <<< fieldShift pos len) =
      a &&& ~~~(mask len <<< fieldShift pos len) := by
  rw [insertField, BitVec.shiftLeft_and_distrib]
  ext i hi
  simp only [BitVec.getElem_and, BitVec.getElem_or, BitVec.getElem_not]
  cases (mask len <<< fieldShift pos len)[i] <;> simp

theorem insertField_insertField (c : Word) :
    insertField pos len (insertField pos len a b) c = insertField pos len a c := by
  rw [insertField, insertField_frame, ← insertField]

end

theorem extract_insertField {pos len : Nat} (hfit : pos + len ≤ 64) (a b : Word) :
    (insertField pos len a b >>> fieldShift pos len) &&& mask len = b &&& mask len := by
  refine BitVec.eq_of_getLsbD_eq fun i hi => ?_
  rw [BitVec.getLsbD_and, BitVec.getLsbD_and, getLsbD_mask, BitVec.getLsbD_ushiftRight, getLsbD_insertField a b hfit]
  by_cases hil : i < len
  · simp [hil]
  · simp [hil]

theorem and_mask_eq_ofNat (b : Word) {len : Nat} (hl : len ≤ 64) :
    b &&& mask len = BitVec.ofNat 64 (b.toNat % 2 ^ len) := by
  refine BitVec.eq_of_toNat_eq ?_
  have hlt : b.toNat % 2 ^ len < 2 ^ 64 := Nat.lt_of_le_of_lt (Nat.mod_le _ _) b.isLt
  rw [toNat_and_mask b hl, BitVec.toNat_ofNat, Nat.mod_eq_of_lt hlt]

theorem ofNat_mod_of_lt (b : Word) {len : Nat} (h : b.toNat < 2 ^ len) :
    BitVec.ofNat 64 (b.toNat % 2 ^ len) = b := by
  rw [Nat.mod_eq_of_lt h, BitVec.ofNat_toNat, BitVec.setWidth_eq]

/-! ### The responses to commands in range (R89, R91, R93) -/

section
variable {pos len n : Nat} (be : Bool) (a b : Word)

theorem bfextResponse_of_fieldOK (h : fieldOK pos len = true) :
    bfextResponse be pos len a = ⟨.ok, (endianNormalize be a >>> fieldShift pos len) &&& mask len⟩ := if_pos h

theorem bfinsResponse_of_fieldOK (h : fieldOK pos len = true) :
    bfinsResponse pos len a b = ⟨.ok, insertField pos len a b⟩ := if_pos h

/-- NTHBYTE shifts and masks as a big-endian extract of 8 bits at `8n` does (R94). -/
theorem nthbyteResponse_eq_bfextResponse (h : n ≤ 7) : nthbyteResponse n a = bfextResponse true (8 * n) 8 a := by
  have hshift : byteShift n = fieldShift (8 * n) 8 := by unfold byteShift fieldShift; omega
  rw [nthbyteResponse, if_pos (byteOK_iff.2 h), bfextResponse_of_fieldOK _ _ (fieldOK_iff.2 (by omega)), hshift]
  rfl

theorem nthbyteResponse_of_le (h : n ≤ 7) :
    nthbyteResponse n a = ⟨.ok, (a.extractLsb' (56 - 8 * n) 8).setWidth 64⟩ := by
  have hbyte : (a >>> byteShift n) &&& mask 8 = (a.extractLsb' (56 - 8 * n) 8).setWidth 64 := by
    refine BitVec.eq_of_getLsbD_eq fun i hi => ?_
    rw [BitVec.getLsbD_and, getLsbD_mask, BitVec.getLsbD_ushiftRight, BitVec.getLsbD_setWidth,
      BitVec.getLsbD_extractLsb', byteShift, show 8 * (7 - n) = 56 - 8 * n by omega]
    simp [hi, Bool.and_comm]
  rw [nthbyteResponse, if_pos (byteOK_iff.2 h), ← hbyte]
  rfl

/-- The little-endian extract is the big-endian one of the swapped buffer (R84). -/
theorem bfextResponse_littleEndian : bfextResponse false pos len a = bfextResponse true pos len (byteSwap64 a) := by
  simp [bfextResponse, endianNormalize]

theorem bfextResponse_full (be : Bool) : bfextResponse be 0 64 a = ⟨.ok, endianNormalize be a⟩ := by
  have hmask : mask 64 = BitVec.allOnes 64 := rfl
  rw [bfextResponse_of_fieldOK be a (by decide), hmask, BitVec.and_allOnes, show fieldShift 0 64 = 0 from rfl,
    BitVec.ushiftRight_zero]

/-! ### No operation raises ILLEGAL (R96) -/

theorem bfextResponse_status_ne_illegal : (bfextResponse be pos len a).status ≠ .illegal := by
  cases h : fieldOK pos len with
  | true => simp [bfextResponse_status_of_fieldOK be a h]
  | false => simp [bfextResponse_of_not_fieldOK be a h]

theorem bfinsResponse_status_ne_illegal : (bfinsResponse pos len a b).status ≠ .illegal := by
  cases h : fieldOK pos len with
  | true => simp [bfinsResponse_status_of_fieldOK a b h]
  | false => simp [bfinsResponse_of_not_fieldOK a b h]

theorem nthbyteResponse_status_ne_illegal : (nthbyteResponse n a).status ≠ .illegal := by
  cases h : byteOK n with
  | true => simp [nthbyteResponse_status_of_byteOK a h]
  | false => simp [nthbyteResponse_of_not_byteOK a h]

end

/-! ### What accepting each command does (R34) -/

section
variable (s : State)

theorem exec_bfext_eq (be : Bool) (pos len : Nat) :
    exec (.bfext be pos len) s = .next (s.answer (bfextResponse be pos len s.pins.reqA)) := rfl

theorem exec_bfins_eq (pos len : Nat) :
    exec (.bfins pos len) s = .next (s.answer (bfinsResponse pos len s.pins.reqA s.pins.reqB)) := rfl

theorem exec_nthbyte_eq (n : Nat) : exec (.nthbyte n) s = .next (s.answer (nthbyteResponse n s.pins.reqA)) := rfl

end

/-! ### `Execute`, whichever the command word (R85, R86) -/

/-- Everything `Execute` can be: the operation OP selects on the word's fields, where its reserved bits are 0, or
ILLEGAL, whatever A and B are. -/
theorem execute_cases (cmd : Cmd) :
    (reservedOK cmd = true ∧ cmdOp cmd = 0 ∧
      ∀ a b, execute cmd a b = bfextResponse (cmdBe cmd) (cmdPos cmd) (cmdLen cmd) a) ∨
    (reservedOK cmd = true ∧ cmdOp cmd = 1 ∧ ∀ a b, execute cmd a b = bfinsResponse (cmdPos cmd) (cmdLen cmd) a b) ∨
    (reservedOK cmd = true ∧ cmdOp cmd = 2 ∧ ∀ a b, execute cmd a b = nthbyteResponse (cmdPos cmd) a) ∨
    (reservedOK cmd = false ∧ ∀ a b, execute cmd a b = raise .illegal) := by
  obtain ⟨hop, hm, hr, -⟩ | ⟨hop, hm, hr, -⟩ | ⟨hop, hm, hr, -⟩ | ⟨⟨e, hd⟩, hr, -⟩ := decode_cases cmd
  · exact .inl ⟨hr, hop, fun a b => execute_bfext a b hop hm⟩
  · exact .inr (.inl ⟨hr, hop, fun a b => execute_bfins a b hop hm⟩)
  · exact .inr (.inr (.inl ⟨hr, hop, fun a b => execute_nthbyte a b hop hm⟩))
  · exact .inr (.inr (.inr ⟨hr, fun a b => execute_of_noRow (noRow_of_decode_error hd) a b⟩))

/-! ### The circuit's parts (R88) -/

/-- The thermometer is the mask. -/
theorem maskGen_eq_mask (len : Nat) : maskGen len = mask len := by
  refine BitVec.eq_of_getLsbD_eq fun i hi => ?_
  rw [getLsbD_mask, maskGen, BitVec.getLsbD_ofFnLE]
  simp [hi]

theorem mergeField_eq_insertField (pos len : Nat) (a b : Word) :
    mergeField a (maskGen len <<< fieldShift pos len) ((b &&& maskGen len) <<< fieldShift pos len) =
      insertField pos len a b := by
  rw [maskGen_eq_mask]; rfl

/-! ### The obligations -/

/-- Settles O8: the place of a byte is counted from the other end, twice from the same. -/
theorem byteSwapIsInvolutive : Obligations.ByteSwapIsInvolutive :=
  fun w => ⟨byteSwap64_byteSwap64 w, fun _ hk _ hj => getLsbD_byteSwap64_place w hk hj⟩

/-- Settles O10: the bounds are the check's own arithmetic. -/
theorem fieldGeometry : Obligations.FieldGeometry := by
  refine ⟨fun _ _ => fieldOK_iff, fun _ => byteOK_iff, fun pos len h => ?_⟩
  obtain ⟨hlen, hl, hfit⟩ := fieldOK_iff.1 h
  have hshift : fieldShift pos len = 64 - pos - len := rfl
  exact ⟨by omega, by omega, by omega, by omega, fun w i hi => getLsbD_fieldShift_add hfit w hi⟩

/-- Settles O11: the response is the extracted word of the normalized buffer. -/
theorem bfextCompletesWithField : Obligations.BfextCompletesWithField := by
  intro be pos len s hlen hl hfit
  refine ⟨(endianNormalize be s.pins.reqA >>> fieldShift pos len) &&& mask len, ?_,
    fun i _ => getLsbD_extract hfit _ i⟩
  rw [exec_bfext_eq, bfextResponse_of_fieldOK be _ (fieldOK_iff.2 ⟨hlen, hl, hfit⟩)]
  rfl

/-- Settles O12: the response is the updated word. -/
theorem bfinsCompletesWithUpdatedWord : Obligations.BfinsCompletesWithUpdatedWord := by
  intro pos len s hlen hl hfit
  refine ⟨insertField pos len s.pins.reqA s.pins.reqB, ?_, fun p hp => getMsbD_insertField hfit _ _ hp⟩
  rw [exec_bfins_eq, bfinsResponse_of_fieldOK _ _ (fieldOK_iff.2 ⟨hlen, hl, hfit⟩)]
  rfl

/-- Settles O13: the response is the byte. -/
theorem nthbyteCompletesWithByte : Obligations.NthbyteCompletesWithByte := by
  intro n s hn
  rw [exec_nthbyte_eq, nthbyteResponse_of_le _ hn]
  rfl

/-- Settles O14: out of range the check fails, and the response is RANGE. -/
theorem outOfRangeIsAnsweredRange : Obligations.OutOfRangeIsAnsweredRange := by
  refine ⟨fun be pos len s hout => ?field, fun n s hout => ?byte⟩
  case field =>
    have hno : fieldOK pos len = false := by rw [← Bool.not_eq_true, fieldOK_iff]; omega
    rw [exec_bfext_eq, exec_bfins_eq, bfextResponse_of_not_fieldOK be _ hno, bfinsResponse_of_not_fieldOK _ _ hno]
    exact ⟨rfl, rfl⟩
  case byte =>
    have hno : byteOK n = false := by rw [← Bool.not_eq_true, byteOK_iff]; omega
    rw [exec_nthbyte_eq, nthbyteResponse_of_not_byteOK _ hno]
    rfl

/-- Settles O15: each command's response is its operation's, which raises RANGE at most. -/
theorem everyCommandOnlyAppendsOneResponse : Obligations.EveryCommandOnlyAppendsOneResponse := by
  intro i s
  cases i with
  | bfext be pos len =>
    exact ⟨_, exec_bfext_eq s be pos len, bfextResponse_status_ne_illegal be _, bfextResponse_sound be pos len _⟩
  | bfins pos len =>
    exact ⟨_, exec_bfins_eq s pos len, bfinsResponse_status_ne_illegal _ _, bfinsResponse_sound pos len _ _⟩
  | nthbyte n => exact ⟨_, exec_nthbyte_eq s n, nthbyteResponse_status_ne_illegal _, nthbyteResponse_sound n _⟩

/-- Settles O17: only BFINS reads B, and only past its range check; ILLEGAL is raised before A or B is read. -/
theorem responsesIgnoreUnusedOperands : Obligations.ResponsesIgnoreUnusedOperands := by
  intro cmd a a' b b'
  rw [← cmdOp]
  obtain ⟨-, hop, h⟩ | ⟨-, hop, h⟩ | ⟨-, hop, h⟩ | ⟨-, h⟩ := execute_cases cmd
  · simp [h, bfextResponse_status_ne_illegal]
  · refine ⟨fun hne => absurd hop hne, fun hnotOk => ?error, fun hill => ?illegal⟩
    case error =>
      rw [h] at hnotOk
      have hno : fieldOK (cmdPos cmd) (cmdLen cmd) = false :=
        Bool.eq_false_iff.2 fun hok => hnotOk (bfinsResponse_status_of_fieldOK a b hok)
      rw [h, h, bfinsResponse_of_not_fieldOK a b' hno, bfinsResponse_of_not_fieldOK a b hno]
    case illegal => exact absurd (h a b ▸ hill) (bfinsResponse_status_ne_illegal a b)
  · simp [h, nthbyteResponse_status_ne_illegal]
  · simp [h]

/-- Settles O18: the little-endian extract normalizes by the swap, the full-width one shifts and masks nothing away, and
the mask bounds the result. -/
theorem bfextLaws : Obligations.BfextLaws := by
  refine ⟨fun pos len a b hlen hl hfit => ?endian, fun a b => ?be, fun a b => ?le,
    fun be pos len a b hlen hl hfit => ?width⟩
  case endian =>
    rw [execute_encode_bfext (by omega) (by omega), execute_encode_bfext (by omega) (by omega),
      bfextResponse_littleEndian]
  case be => exact (execute_encode_bfext (by decide) (by decide) a b).trans (bfextResponse_full a true)
  case le => exact (execute_encode_bfext (by decide) (by decide) a b).trans (bfextResponse_full a false)
  case width =>
    have hok : fieldOK pos len = true := fieldOK_iff.2 ⟨hlen, hl, hfit⟩
    rw [execute_encode_bfext (by omega) (by omega), toNat_bfextResponse_result be a hok]
    exact ⟨bfextResponse_status_of_fieldOK be a hok, Nat.mod_lt _ (Nat.two_pow_pos len)⟩

/-- Settles O19: the extract reads back what the insert put, the frame is the insert's own mask, and a second insert
overwrites the first. -/
theorem bfinsLaws : Obligations.BfinsLaws := by
  intro pos len a b c hlen hl hfit
  have hok : fieldOK pos len = true := fieldOK_iff.2 ⟨hlen, hl, hfit⟩
  have hp : pos ≤ 127 := by omega
  have hl' : len ≤ 127 := by omega
  have hinsert (x : Word) : execute (encode (.bfins pos len)) x b = ⟨.ok, insertField pos len x b⟩ := by
    rw [execute_encode_bfins hp hl', bfinsResponse_of_fieldOK x b hok]
  have hextract : execute (encode (.bfext true pos len)) (insertField pos len a b) c =
      ⟨.ok, BitVec.ofNat 64 (b.toNat % 2 ^ len)⟩ := by
    rw [execute_encode_bfext hp hl', bfextResponse_of_fieldOK true _ hok, ← and_mask_eq_ofNat b hl,
      ← extract_insertField hfit a b]
    rfl
  exact ⟨insertField pos len a b, hinsert a, hextract, fun hb => hextract.trans (by rw [ofNat_mod_of_lt b hb]),
    insertField_frame pos len a b, by rw [hinsert, insertField_insertField]⟩

/-- Settles O20: both shift by the same amount and mask 8 bits. -/
theorem nthbyteIsByteAlignedExtract : Obligations.NthbyteIsByteAlignedExtract := by
  intro n a b c hn
  rw [execute_encode_nthbyte (by omega), execute_encode_bfext (by omega) (by omega), nthbyteResponse_eq_bfextResponse a hn]

/-- Settles O21: per operation the multiplexers select its own source, amount and comparator, and an error forces 0. -/
theorem datapathConformsToExecute : Obligations.DatapathConformsToExecute := by
  intro cmd a b
  obtain ⟨hr, hop, h⟩ | ⟨hr, hop, h⟩ | ⟨hr, hop, h⟩ | ⟨hr, h⟩ := execute_cases cmd
  · cases hok : fieldOK (cmdPos cmd) (cmdLen cmd) with
    | true =>
      rw [h, bfextResponse_of_fieldOK _ a hok]
      cases hbe : cmdBe cmd <;>
        simp [datapath, hr, inRange, hop, hok, rawResult, swapMux, rightAmount, maskGen_eq_mask, endianNormalize, hbe]
    | false => simp [h, bfextResponse_of_not_fieldOK _ a hok, datapath, hr, inRange, hop, hok, raise, respond]
  · cases hok : fieldOK (cmdPos cmd) (cmdLen cmd) with
    | true => simp [h, bfinsResponse_of_fieldOK a b hok, datapath, hr, inRange, hop, hok, rawResult,
        mergeField_eq_insertField]
    | false => simp [h, bfinsResponse_of_not_fieldOK a b hok, datapath, hr, inRange, hop, hok, raise, respond]
  · cases hok : byteOK (cmdPos cmd) with
    | true => simp [h, nthbyteResponse, datapath, hr, inRange, hop, hok, rawResult, swapMux, rightAmount, respond]
    | false => simp [h, nthbyteResponse_of_not_byteOK a hok, datapath, hr, inRange, hop, hok, raise, respond]
  · simp [h, datapath, hr, raise, respond]

end Sys2Proof.Machine
end

section
/-! PROOFS. One clock edge: reset, the handshakes, the ports and the refusals (spec 10_state.md,
70_reset_and_hazards.md), and the obligations O23, O25 to O27, O29 and O31 to O35 assembled from it. -/

namespace Sys2Proof.Machine

/-! ### The response port (R28) -/

section
variable {s : State} {e : Entry} {q : List Entry}

theorem rspValid_of_empty (hr : s.resetSeen = true) (hq : s.queue = []) : s.rspValid = false := by
  rw [Bool.eq_false_iff, ne_eq, rspValid_iff hr]
  rintro ⟨-, e, q, hcons, -⟩
  simp [hq] at hcons

/-- With a response in flight and no reset, `rsp_valid` is the readiness of the oldest. -/
theorem rspValid_of_cons (h0 : s.pins.rst = false) (hr : s.resetSeen = true) (hq : s.queue = e :: q) :
    s.rspValid = e.readyAt s.cycle := by
  simp [State.rspValid, State.headReady, h0, hr, hq]

theorem outputs_of_rspValid (hq : s.queue = e :: q) (hv : s.rspValid = true) :
    s.outputs.rspStatus = statusCode e.response.status ∧ s.outputs.rspResult = e.response.result := by
  simp [State.outputs, hq, hv]

end

/-! ### The handshakes of an edge without reset (R24) -/

section
variable {s : State} (h0 : s.pins.rst = false)
include h0

theorem rspHandshake_eq : (s.outputs.rspValid && s.pins.rspReady) = s.delivering := by
  simp [State.delivering, h0]

theorem reqHandshake_eq : (s.pins.reqValid && s.outputs.reqReady) = s.accepting := by
  simp [State.accepting, h0]

/-- Accepting a word that decodes runs the command it decodes to, after the edge's delivery. -/
theorem step_runs_decoded {i : Instr} (hr : s.resetSeen = true) (hs : s.requestStable = true)
    (ha : s.accepting = true) (hd : decode s.pins.reqCmd = .ok i) :
    ∃ u, exec i s.afterDelivery = .next u ∧ step s = .next (u.nextCycle true) := by
  obtain ⟨r, hexec⟩ := exec_answers i s.afterDelivery
  refine ⟨_, hexec, ?_⟩
  simp [step, h0, hr, hs, ha, runOffered, hd, hexec, endAccepted]

end

/-- The entries the coming edge does not hand over. -/
def State.staying (s : State) : List Entry := if s.delivering then s.queue.tail else s.queue

theorem leaving_append_staying (s : State) : s.leaving ++ s.staying = s.queue := by
  rw [State.leaving, State.staying]
  cases s.delivering
  · rfl
  · exact List.drop_one (l := s.queue) ▸ List.take_append_drop 1 s.queue

theorem afterDelivery_of_not_delivering {s : State} (hr : s.resetSeen = true) (hd : s.delivering = false) :
    s.afterDelivery = s := by
  obtain ⟨hd', -⟩ | ⟨-, hs⟩ := afterDelivery_cases hr
  · simp [hd] at hd'
  · exact hs

theorem decodeTableWord_eq_some {nbits w : Nat} {i : Instr} :
    decodeTableWord nbits w = some i ↔ decode (tableWord nbits w) = .ok i := by
  unfold decodeTableWord
  split <;> simp [*]

/-- The presented state meets every condition of acceptance. -/
theorem present_accepting (s : State) (cmd : Cmd) : (s.present cmd).accepting = true := by
  have hroom : (s.present cmd).queue.length < Config.maxInflight := by
    rw [State.present_queue, keepOldest_eq_take]
    exact Nat.lt_succ_of_le (List.length_take_le _ _)
  exact (accepting_iff rfl).2 ⟨rfl, rfl, hroom⟩

/-! ### What an edge leaves on the ports and with the requester (R25) -/

@[simp] theorem nextPins_afterDelivery (s : State) (accepted : Bool) :
    s.afterDelivery.nextPins accepted = s.nextPins accepted := by
  simp only [State.nextPins, afterDelivery_script, afterDelivery_pins]

@[simp] theorem nextPins_answer (s : State) (r : Response) (accepted : Bool) :
    (s.answer r).nextPins accepted = s.nextPins accepted := rfl

/-- Whatever an edge does to the queue, the environment's fields move on with what was accepted. -/
theorem step_environment {s t : State} (h : step s = .next t) :
    t.resetSeen = true ∧ t.pins = s.nextPins s.accepting ∧ t.script = s.script.tail ∧
      t.pending = s.heldRequest s.accepting := by
  obtain ⟨h0, rfl⟩ | ⟨-, hr, -, ⟨ha, rfl⟩ | ⟨ha, rfl⟩⟩ := step_cases h
  · simp [accepting_of_rst h0]
  · simp [ha, hr]
  · simp [ha, hr, State.heldRequest]

/-! ### The refusals (R114, R120) -/

theorem step_before_reset {s : State} (h0 : s.pins.rst = false) (hr : s.resetSeen = false) :
    step s = .refused .noResetSincePowerUp := by
  simp [step, h0, hr]

theorem step_request_changed {s : State} (h0 : s.pins.rst = false) (hr : s.resetSeen = true)
    (hs : s.requestStable = false) : step s = .refused .requestChanged := by
  simp [step, h0, hr, hs]

theorem requestStable_eq_false_iff {s : State} :
    s.requestStable = false ↔
      ∃ r, s.pending = some r ∧ ¬(s.pins.reqValid = true ∧ s.pins.request = r) := by
  rw [← Bool.not_eq_true, requestStable_iff]
  simp only [not_forall, exists_prop]

/-! ### The obligations -/

/-- Settles O23: an empty queue has room and nothing to present. -/
theorem resetStateIsReadyAndEmpty : Obligations.ResetStateIsReadyAndEmpty := by
  refine ⟨rfl, ?_, ?_⟩
  · rw [outputs_reqReady]
    exact (reqReady_iff rfl).2 ⟨rfl, one_le_maxInflight⟩
  · rw [outputs_rspValid]
    exact rspValid_of_empty rfl rfl

/-- Settles O25: the reset edge empties the queue and records the reset. -/
theorem oneResetEdgeSuffices : Obligations.OneResetEdgeSuffices := by
  intro s t h0 hstep ht
  obtain rfl : s.resetEdge = t := by simpa [step_reset h0] using hstep
  refine ⟨rfl, rfl, ?_, ?_⟩
  · rw [outputs_reqReady]
    exact (reqReady_iff rfl).2 ⟨ht, one_le_maxInflight⟩
  · rw [outputs_rspValid]
    exact rspValid_of_empty rfl rfl

/-- Settles O26: the conditions given are those of acceptance. -/
theorem stepRunsTheDecodedCommand : Obligations.StepRunsTheDecodedCommand := by
  intro s i h0 hr hs hv hroom hd
  exact ⟨step_runs_decoded h0 hr hs ((accepting_iff hr).2 ⟨h0, hv, hroom⟩) hd, afterDelivery_of_not_delivering hr⟩

/-- Settles O27: presenting the word sets up the conditions of acceptance. -/
theorem presentedTableWordRunsNext : Obligations.PresentedTableWordRunsNext := by
  intro s w i hi
  exact step_runs_decoded rfl rfl rfl (present_accepting s _) (decodeTableWord_eq_some.1 hi)

/-- Settles O29: the edge's flow takes the oldest entry exactly if it delivers and adds one exactly if it accepts. -/
theorem edgeTransfersExactlyByHandshake : Obligations.EdgeTransfersExactlyByHandshake := by
  intro s h0 hr hs
  have hstep := step_live h0 hr hs
  obtain ⟨-, -, hdelivered, hqueue⟩ := step_flow h0 hstep
  refine ⟨_, hstep, (step_environment hstep).1, ?_⟩
  rw [rspHandshake_eq h0, reqHandshake_eq h0]
  refine ⟨?delivered, ?queue⟩
  case delivered =>
    rw [hdelivered, State.leaving, State.responses, ← List.map_take]
    split <;> rfl
  case queue =>
    rw [← leaving_append_staying, List.append_assoc] at hqueue
    rw [← List.append_cancel_left hqueue, State.staying, State.joining]
    cases s.accepting
    · exact List.append_nil _
    · rfl

/-- Settles O31: `rsp_valid` is the readiness of the oldest entry, which its bounds decide at both ends. -/
theorem responseValidWithinLatency : Obligations.ResponseValidWithinLatency := by
  refine ⟨one_le_rspLatency, fun s hr h0 => ⟨fun hq => ?empty, fun e q hq => ?inFlight⟩⟩
  case empty => rw [outputs_rspValid, rspValid_of_empty hr hq]
  case inFlight =>
    refine ⟨fun hle => ?early, fun hle => ?late, fun hv => ?ports⟩
    case early => rw [outputs_rspValid, rspValid_of_cons h0 hr hq, not_readyAt_of_le hle]
    case late => rw [outputs_rspValid, rspValid_of_cons h0 hr hq, readyAt_of_latency hle]
    case ports => exact outputs_of_rspValid hq (outputs_rspValid s ▸ hv)

/-- Settles O32: nothing leaves, so the same entry is the oldest, and it stays ready. -/
theorem responseHeldUntilTaken : Obligations.ResponseHeldUntilTaken := by
  intro s t hr hv hy hstep ht
  rw [outputs_rspValid] at hv ⊢
  obtain ⟨h0, e, q, hq, he⟩ := (rspValid_iff hr).1 hv
  obtain ⟨-, -, -, hqueue⟩ := step_flow h0 hstep
  have hleaving : s.leaving = [] := by simp [State.leaving, State.delivering, hy]
  have htq : t.queue = e :: (q ++ s.joining) := by simpa [hleaving, hq] using hqueue.symm
  have hready : e.readyAt t.cycle = true := readyAt_mono he (step_cycle hstep ▸ Nat.le_succ _)
  have htv : t.rspValid = true := (rspValid_of_cons ht (step_environment hstep).1 htq).trans hready
  obtain ⟨hstatus, hresult⟩ := outputs_of_rspValid hq hv
  obtain ⟨hstatus', hresult'⟩ := outputs_of_rspValid htq htv
  exact ⟨htv, hstatus'.trans hstatus.symm, hresult'.trans hresult.symm⟩

/-- Settles O33: the four cases of `step`'s guards, each with its one answer. -/
theorem refusedExactlyOutsideTheRules : Obligations.RefusedExactlyOutsideTheRules := by
  intro s
  rw [← requestStable_eq_false_iff]
  cases h0 : s.pins.rst with
  | true => simp [step_reset h0]
  | false =>
    cases hr : s.resetSeen with
    | false => simp [step_before_reset h0 hr]
    | true =>
      cases hs : s.requestStable with
      | false => simp [step_request_changed h0 hr hs]
      | true => simp [step_live h0 hr hs]

/-- Settles O34: what is held is read off the edge's own acceptance. -/
theorem unacceptedRequestMustBeHeld : Obligations.UnacceptedRequestMustBeHeld := by
  intro s t hstep
  obtain ⟨-, -, -, hpending⟩ := step_environment hstep
  exact ⟨hpending, step_cycle hstep⟩

/-- Settles O35: the next pins are the script's head, or the same with the accepted request withdrawn. -/
theorem nextInputsComeFromTheScript : Obligations.NextInputsComeFromTheScript := by
  intro s t hstep
  obtain ⟨-, hpins, hscript, -⟩ := step_environment hstep
  refine ⟨fun p ps hs => ?scripted, fun hs => ?ended⟩
  case scripted => simp [hpins, hscript, State.nextPins, hs]
  case ended => simp [hpins, hscript, State.nextPins, hs, Inputs.request]

end Sys2Proof.Machine
end

section
/-! PROOFS. The requester's lines, its packings, the shared buffer and the arbiter (spec 30_encoding.md section 5,
20_memory.md), and the obligations O45 to O51 assembled from them. -/

namespace Sys2Proof.Machine

/-! ### Writing a variable (R73) -/

/-- The requester after it has taken an OK response with RESULT `w` into `rd`. -/
def Requester.write (q : Requester) (rd : Nat) (w : Word) : Requester := { vars := (rd, w) :: q.vars, st := .ok }

section
variable (q : Requester) (rd : Nat) (w : Word)

@[simp] theorem write_var_same : (q.write rd w).var rd = w := by simp [Requester.write, var_write]

theorem write_var_of_ne {v : Nat} (h : v ≠ rd) : (q.write rd w).var v = q.var v := by
  rw [Requester.write, var_write, if_neg h]
  rfl

@[simp] theorem write_value_same : (q.write rd w).value (.var rd) = w := write_var_same q rd w

theorem write_value_of_ne {source : Source} (h : source ≠ .var rd) : (q.write rd w).value source = q.value source := by
  cases source with
  | var v => exact write_var_of_ne q rd w fun hv => h (congrArg Source.var hv)
  | lit x => rfl

end

theorem run_of_ok {q : Requester} {l : Line} (h : (callAnswer l.call (q.value l.ra) (q.value l.rb)).status = .ok) :
    q.run l = q.write l.rd (callAnswer l.call (q.value l.ra) (q.value l.rb)).result := by
  obtain ⟨-, hrun⟩ | ⟨hne, -⟩ := take_cases q l.rd (callAnswer l.call (q.value l.ra) (q.value l.rb))
  · exact hrun
  · exact absurd h hne

theorem run_of_answer {q : Requester} {l : Line} {w : Word}
    (h : callAnswer l.call (q.value l.ra) (q.value l.rb) = ⟨.ok, w⟩) : q.run l = q.write l.rd w := by
  simpa [h] using run_of_ok (q := q) (l := l) (by rw [h])

@[simp] theorem runAll_singleton (q : Requester) (l : Line) : q.runAll [l] = q.run l := rfl

theorem runAll_append (q : Requester) (ls ls' : List Line) : q.runAll (ls ++ ls') = (q.runAll ls).runAll ls' := by
  induction ls generalizing q with
  | nil => rfl
  | cons l ls ih => exact ih (q.run l)

/-! ### Calls and lines in range (R73) -/

section
variable {pos len n : Nat} (a b : Word)

theorem callAnswer_bfext_of_fieldOK (be : Bool) (h : fieldOK pos len = true) :
    callAnswer (.bfext be pos len) a b = ⟨.ok, (endianNormalize be a >>> fieldShift pos len) &&& mask len⟩ := by
  obtain ⟨-, hl, hfit⟩ := fieldOK_iff.1 h
  rw [callAnswer_bfext a b be (by omega) (by omega), bfextResponse_of_fieldOK be a h]

theorem callAnswer_bfins_of_fieldOK (h : fieldOK pos len = true) :
    callAnswer (.bfins pos len) a b = ⟨.ok, insertField pos len a b⟩ := by
  obtain ⟨-, hl, hfit⟩ := fieldOK_iff.1 h
  rw [callAnswer_bfins a b (by omega) (by omega), bfinsResponse_of_fieldOK a b h]

theorem callAnswer_nthbyte_of_le (h : n ≤ 7) :
    callAnswer (.nthbyte n) a b = ⟨.ok, (byteOf a n).setWidth 64⟩ := by
  rw [callAnswer_nthbyte a b (by omega), nthbyteResponse_of_le a h, byteOf]

end

section
variable (q : Requester) (rd : Nat) (ra rb : Source) {pos len n : Nat}

theorem run_lineBfextBe (h : fieldOK pos len = true) : q.run (lineBfextBe rd ra pos len) =
    q.write rd ((q.value ra >>> fieldShift pos len) &&& mask len) :=
  run_of_answer (callAnswer_bfext_of_fieldOK _ _ true h)

theorem run_lineBfextLe (h : fieldOK pos len = true) : q.run (lineBfextLe rd ra pos len) =
    q.write rd ((byteSwap64 (q.value ra) >>> fieldShift pos len) &&& mask len) :=
  run_of_answer (callAnswer_bfext_of_fieldOK _ _ false h)

theorem run_lineBfins (h : fieldOK pos len = true) : q.run (lineBfins rd ra rb pos len) =
    q.write rd (insertField pos len (q.value ra) (q.value rb)) :=
  run_of_answer (callAnswer_bfins_of_fieldOK _ _ h)

theorem run_lineNthbyte (h : n ≤ 7) :
    q.run (lineNthbyte rd ra n) = q.write rd ((byteOf (q.value ra) n).setWidth 64) :=
  run_of_answer (callAnswer_nthbyte_of_le _ _ h)

/-- The swap is the full-width little-endian extract (R74, R90). -/
theorem runAll_pseudoBswap : q.runAll (pseudoBswap rd ra) = q.write rd (byteSwap64 (q.value ra)) := by
  have hanswer := callAnswer_bfext (pos := 0) (len := 64) (q.value ra) 0 false (by decide) (by decide)
  exact run_of_answer (l := lineBfextLe rd ra 0 64) (hanswer.trans (bfextResponse_full (q.value ra) false))

end

/-! ### Packings (R47) -/

/-- Big-endian packing puts payload byte `k` into byte `k` of the word. -/
theorem byteOf_packBigEndian (p : Payload) {k : Nat} (hk : k < 8) : byteOf (packBigEndian p) k = p[k] := by
  refine BitVec.eq_of_getLsbD_eq fun j hj => ?_
  rw [getLsbD_byteOf]
  unfold packBigEndian
  simp only [BitVec.getLsbD_append]
  interval_cases k <;> interval_cases j <;> simp

/-- Little-endian packing is the other one's word swapped (R47, R82). -/
theorem packLittleEndian_eq_byteSwap64 (p : Payload) : packLittleEndian p = byteSwap64 (packBigEndian p) := by
  simp only [byteSwap64, byteOf_packBigEndian p, Nat.reduceLT]
  rfl

theorem byteOf_packLittleEndian (p : Payload) {k : Nat} (hk : k < 8) :
    byteOf (packLittleEndian p) (7 - k) = p[k] := by
  have hback : 7 - (7 - k) = k := by omega
  rw [packLittleEndian_eq_byteSwap64, byteOf_byteSwap64 _ (by omega), ← byteOf_packBigEndian p hk, hback]

theorem payloadAnswer_nthbyte {packing : Packing} {p : Payload} {byte : Byte} {j : Nat} (hj : j < 8)
    (h : byteOf (packing p) j = byte) (b : Word) :
    payloadAnswer packing (.nthbyte j) p b = ⟨.ok, byte.setWidth 64⟩ := by
  rw [payloadAnswer, callAnswer_nthbyte_of_le _ b (by omega), h]

/-! ### The obligations -/

/-- Settles O45: taking an answer that is not OK writes only `st`. -/
theorem errorLinesLeaveVariables : Obligations.ErrorLinesLeaveVariables := by
  intro q l hne
  obtain ⟨hok, -⟩ | ⟨-, hrun⟩ := take_cases q l.rd (callAnswer l.call (q.value l.ra) (q.value l.rb))
  · exact absurd hok hne
  · rw [Requester.run, hrun]
    exact ⟨rfl, rfl⟩

/-- Settles O46: the swap is an extract, and the two others insert a word of equal bits. -/
theorem swapClearAndSetPseudoInstructions : Obligations.SwapClearAndSetPseudoInstructions := by
  intro q rd ra pos len hlen hl hfit
  have hok : fieldOK pos len = true := fieldOK_iff.2 ⟨hlen, hl, hfit⟩
  refine ⟨?swap, fun p hp => ?clear, fun p hp => ?set⟩
  case swap => rw [runAll_pseudoBswap, write_var_same]
  case clear =>
    rw [pseudoBfclr, runAll_singleton, run_lineBfins q rd ra _ hok, write_var_same, getMsbD_insertField hfit _ _ hp]
    simp [Requester.value]
  case set =>
    have hones : q.value (.lit 0xFFFFFFFFFFFFFFFF) = BitVec.allOnes 64 := rfl
    rw [pseudoBfset, runAll_singleton, run_lineBfins q rd ra _ hok, write_var_same, getMsbD_insertField hfit _ _ hp,
      hones, BitVec.getLsbD_allOnes, decide_eq_true (show pos + len - 1 - p < 64 by omega)]

/-- Settles O47: the third line swaps back what the second inserted into the word the first had swapped, and the first
line leaves `rb` as it was. -/
theorem littleEndianInsertPseudoInstruction : Obligations.LittleEndianInsertPseudoInstruction := by
  intro q tmp rd ra rb pos len hlen hl hfit hrb p hp
  have hok : fieldOK pos len = true := fieldOK_iff.2 ⟨hlen, hl, hfit⟩
  rw [pseudoBfinsLe, runAll_append, runAll_append, runAll_pseudoBswap q, runAll_singleton, run_lineBfins _ _ _ _ hok,
    runAll_pseudoBswap, write_var_same, byteSwap64_byteSwap64, write_value_same, write_value_same,
    write_value_of_ne _ _ _ hrb, getMsbD_insertField hfit _ _ hp]

/-- Settles O48: NTHBYTE reads the byte where the packing put it, and the little-endian extract swaps the one packing's
word into the other's. -/
theorem payloadPackings : Obligations.PayloadPackings := by
  refine ⟨fun packing p b j k hk hj h => payloadAnswer_nthbyte hj h b,
    fun p b k hk => ⟨payloadAnswer_nthbyte hk (byteOf_packBigEndian p hk) b,
      payloadAnswer_nthbyte (by omega) (byteOf_packLittleEndian p hk) b⟩,
    fun p => ?firstBit, fun p a b pos len hlen hl hfit => ?extract⟩
  case firstBit =>
    rw [← byteOf_packBigEndian p (by decide), getMsbD_eq_getLsbD _ (by decide), BitVec.getMsbD, getLsbD_byteOf]
    rfl
  case extract =>
    have hok : fieldOK pos len = true := fieldOK_iff.2 ⟨hlen, hl, hfit⟩
    have hword : endianNormalize false (packLittleEndian p) = endianNormalize true (packBigEndian p) := by
      rw [packLittleEndian_eq_byteSwap64]
      exact byteSwap64_byteSwap64 _
    rw [payloadAnswer, payloadAnswer, callAnswer_bfext_of_fieldOK _ _ _ hok, callAnswer_bfext_of_fieldOK _ _ _ hok, hword]

/-- Settles O49: interleaved, both read the original buffer and the second write replaces the first; an answer out of
range is never written back. -/
theorem unserializedUpdateCanBeLost : Obligations.UnserializedUpdateCanBeLost := by
  refine ⟨fun buf v₁ v₂ p₁ n₁ p₂ n₂ h₁ h₂ => ?two, fun buf v startPos numBits hout => ?one⟩
  case two =>
    have hcall₁ := fun a => callAnswer_bfins_of_fieldOK a v₁ h₁
    have hcall₂ := fun a => callAnswer_bfins_of_fieldOK a v₂ h₂
    simp [Shared.run, Shared.move, Writer.move, hcall₁, hcall₂]
  case one =>
    have hcall : callAnswer (.bfins startPos numBits) buf v = ⟨.range, 0⟩ :=
      ((integerCallsNeverWrap.1 true startPos numBits buf v).2 hout).2
    simp [Shared.run, Shared.move, Writer.move, hcall]

/-- Settles O50: the responses stand in the places of their commands, so the tags pick out the same places. -/
theorem arbiterReturnsEachItsOwn : Obligations.ArbiterReturnsEachItsOwn := by
  intro order who
  induction order with
  | nil => rfl
  | cons t order ih =>
    rw [issuedBy] at ih ⊢
    cases h : t.issuer == who with
    | true => simp [routedTo, h, ih]
    | false => simp [routedTo, h, ih]

/-- Settles O51: an OK line is one write, of the word its operation makes. -/
theorem okLinesWriteOnlyTheirDestination : Obligations.OkLinesWriteOnlyTheirDestination := by
  refine ⟨fun q l => ?ok, fun q rd ra rb pos len hlen hl hfit => ?field, fun q rd ra n hn => ?byte⟩
  case ok =>
    intro r hr
    rw [run_of_ok hr]
    exact ⟨rfl, write_var_same .., fun v hv => write_var_of_ne _ _ _ hv⟩
  case field =>
    have hok : fieldOK pos len = true := fieldOK_iff.2 ⟨hlen, hl, hfit⟩
    rw [run_lineBfextBe q rd ra hok, run_lineBfextLe q rd ra hok, run_lineBfins q rd ra rb hok]
    refine ⟨fun v hv => ?frame, rfl, rfl, rfl, fun i hi => ?extract, fun p hp => ?insert⟩
    case frame => simp only [write_var_of_ne _ _ _ hv, and_self]
    case extract =>
      rw [write_var_same, write_var_same]
      exact ⟨getLsbD_extract hfit _ i, getLsbD_extract hfit _ i⟩
    case insert => rw [write_var_same, getMsbD_insertField hfit _ _ hp]
  case byte =>
    rw [run_lineNthbyte q rd ra hn]
    exact ⟨rfl, write_var_same .., fun v hv => write_var_of_ne _ _ _ hv⟩

end Sys2Proof.Machine
end
